-- ==== Sys2Proof/Word.lean ====
section
/-! DEFINITION. The bit-vector types of the hardware (00_scope.md R4, R5). Conversions between them are in Machine/Ops.lean. -/

namespace Sys2Proof

/-- Word: "a 16-bit unsigned integer used as the unit of storage and program encoding" (R4, R5). -/
abbrev Word := BitVec 16

/-- Val: an unsigned integer 0..32767; every value an instruction computes with is one (R5, R76). -/
abbrev Val := BitVec 15

/-- One 8-bit character of the input and output streams (R4, IO_CHAR_BITS). -/
abbrev Byte := BitVec 8

/-- The number of a general register, 0 to 7 (R10). -/
abbrev RegIdx := Fin 8

end Sys2Proof
end

