-- ==== Sys2Proof/Machine/Alu.lean ====
section
/-! DEFINITION. The ALU (44_arithmetic_logic.md R110): unsigned 15-bit inputs, the exact result on natural numbers, then modulo 32768. -/

namespace Sys2Proof.Machine

/-- ADD: `(b + c) mod 32768` (R111). -/
def aluAdd (b c : Val) : Val := BitVec.ofNat 15 (b.toNat + c.toNat)

/-- MULT: `(b * c) mod 32768`, the exact product first (R112). -/
def aluMult (b c : Val) : Val := BitVec.ofNat 15 (b.toNat * c.toNat)

/-- MOD: the unsigned remainder; none when the divisor is 0 (R113). -/
def aluMod (b c : Val) : Option Val := if c = 0 then none else some (BitVec.ofNat 15 (b.toNat % c.toNat))

/-- AND: bitwise and (R114). -/
def aluAnd (b c : Val) : Val := b &&& c

/-- OR: bitwise or (R115). -/
def aluOr (b c : Val) : Val := b ||| c

/-- NOT: the complement within 15 bits, `(~b) & 0x7FFF` (R116). -/
def aluNot (b : Val) : Val := ~~~b

end Sys2Proof.Machine
end

