-- ==== Sys2Proof/Config.lean ====
section
/-! DEFINITION. The implementation parameters of 00_scope.md R4, and the one value the spec leaves open (U3). -/

namespace Sys2Proof.Config

/-- MODULUS, 2^15: "all math is performed modulo 32768" (R4). -/
@[simp] abbrev modulus : Nat := 32768

/-- MEM_WORDS: addresses 0..32767 (R4, R18). -/
@[simp] abbrev memWords : Nat := 32768

/-- NUM_REGS (R4, R10). -/
@[simp] abbrev numRegs : Nat := 8

/-- REG_REF_BASE: raw words 32768..32775 denote registers 0 to 7 (R4, R53). -/
@[simp] abbrev regRefBase : Nat := 32768

/-- INVALID_OPERAND_MIN: raw words 32776..65535 are invalid as operands (R4, R53). -/
@[simp] abbrev invalidOperandMin : Nat := 32776

/-- NUM_OPCODES: "the defined 0-21 set" (R4, R52). -/
@[simp] abbrev numOpcodes : Nat := 22

/-- MAX_INSTR_WORDS: one opcode word and at most three operand words (R4, R50). -/
@[simp] abbrev maxInstrWords : Nat := 4

/-- RESET_PC: "Initial state Running with pc = 0" (R4, R25). -/
abbrev resetPc : Word := 0

/-- FREE VALUE (log 4, safe). What `pc` holds after the fault entry numbered `n`: the spec does not say (R22, U3 "any value"), so nothing
constrains it. `n` is the model's own counter `State.freeIndex`. -/
opaque freePc : Nat → Word

end Sys2Proof.Config
end

