-- ==== Sys2Proof/FaultReason.lean ====
section
/-! DEFINITION. The five fault kinds of 60_exceptions.md R140, by name. They are what decoding rejects with and what `run` records. -/

namespace Sys2Proof

/-- The `reason` of the run state `Faulted(reason)` (R20, R140). The source gives the kinds names and no numbers (D12), so this is the
enumerated type the spec asks for. `StackUnderflow` is not among them: it is a halt (R147). -/
inductive FaultReason where
  /-- An operand word in 32776..65535 (R143). -/
  | invalidOperand
  /-- A destination operand word in 8..32767 (R144). -/
  | registerIndexOutOfRange
  /-- MOD with a resolved divisor of 0 (R145). -/
  | divideByZero
  /-- An opcode word outside 0..21, carried whole (R142). -/
  | unknownOpcode (value : Word)
  /-- A word fetched when `pc >= 32768` (R146). -/
  | memoryOutOfBounds
  deriving DecidableEq, Repr

end Sys2Proof
end

