-- ==== Sys2Proof/Machine/State.lean ====
section
/-! DEFINITION. The state of the machine (10_state.md), the outcomes of a step that are not a next state, and the state after reset (R25, R160).
The operations over it are in Machine/Memory.lean and Machine/Ops.lean. -/

namespace Sys2Proof.Machine

/-- Memory as plain data: byte cells in one canonical form (`Memory.wf`). The word at address `a` (R18, R30) is held by the cells `2 * a` (its
low byte) and `2 * a + 1` (its high byte), the pairing of the loader's byte stream (R163); no operation of the machine reads or writes less than
a whole word (R30, R32). DESIGN CHOICE (log 1, safe): only the representation; R32 gives the core no byte order and none can be observed. -/
abbrev Memory := List Host.Cell

/-- What a byte cell that is not listed reads as: "every memory cell 0" after reset (R25, R160; log 2). -/
def unlistedByte : Byte := 0

/-- The `halt_cause` of R21 (decision D9, log 19). -/
inductive HaltCause where
  /-- A HALT was executed (R125). -/
  | haltInstruction
  /-- A POP or RET found the stack empty (R147). -/
  | stackUnderflow
  deriving DecidableEq, Repr

/-- The run state of R20, with the status fields of R21 that go with it: `halt_cause` is meaningful only in `Halted` and `fault_pc` only in
`Faulted`, so each is present exactly there (DEDUCED, log 9, safe). -/
inductive Run where
  | running
  | halted (cause : HaltCause)
  | faulted (reason : FaultReason) (faultPc : Word)
  deriving DecidableEq, Repr

/-- The state of the core and of its two character streams: the tuple of 10_state.md. -/
structure State where
  /-- `x[0..7]` (R10). -/
  regs : Vector Word 8
  /-- The program counter (R12); it does not wrap (R13). -/
  pc : Word
  /-- The stack (R14), its top first; unbounded. `sp` is its length (R15). DESIGN CHOICE (log 10, safe): the order in the list. -/
  stack : List Word
  /-- Memory (R18). -/
  mem : Memory
  /-- The run state and the status that goes with it (R20, R21). -/
  run : Run
  /-- The bytes emitted so far, oldest first (R23, R129). -/
  output : List Byte
  /-- The bytes the input source has made available and no IN has taken, next first (R23, R130). -/
  input : List Byte
  /-- The model's own: the index of the next free value (log 4). -/
  freeIndex : Nat
  deriving DecidableEq, Repr

/-- The machine has NO outcome `fault`: each of the five faults of R140 is taken as R141 describes it, a NEXT state whose `run` is
`faulted reason faultPc` (log 5, safe). No constructor, so no step can answer with one. -/
inductive Fault where
  deriving DecidableEq, Repr

/-- Why a step refuses to give a meaning. Every instruction has its meaning, so no step of this model answers with one. -/
inductive Refusal where
  /-- Raised only by an arm of `exec` for an instruction whose meaning is not written yet; safe. No arm is left that raises it. -/
  | notModelled (mnemonic : String)
  deriving DecidableEq, Repr

/-- What a step answers. -/
abbrev Answer := Host.Outcome State Fault Refusal

/-- The machine right after reset, before the loader writes the image (R25, R160): everything 0, `Running`, at address 0. The spec gives no
`input` at reset: DESIGN CHOICE empty (log 8, unsafe). `freeIndex` is the model's own: DESIGN CHOICE 0 (log 4). -/
def State.reset : State where
  regs := Vector.replicate 8 0
  pc := Config.resetPc
  stack := []
  mem := []
  run := .running
  output := []
  input := []
  freeIndex := 0

end Sys2Proof.Machine
end

