-- ==== Sys2Proof/Machine/Memory.lean ====
section
/-! DEFINITION. Memory (20_memory.md): byte cells in canonical form, and above them the one access the hardware has, a whole word (R30). -/

namespace Sys2Proof.Machine

/-- The canonical form: addresses strictly rising, no cell equal to what an unlisted one reads as, and every cell inside the 32768 words. -/
abbrev Memory.wf (m : Memory) : Prop :=
  m.Pairwise (fun p q => p.1 < q.1) ∧ ∀ p ∈ m, p.2 ≠ unlistedByte ∧ p.1 < 2 * Config.memWords

/-- The byte held by cell `k`. -/
def Memory.byteAt : Memory → Nat → Byte
  | [], _ => unlistedByte
  | (k', v) :: m, k => if k' = k then v else Memory.byteAt m k

/-- The list with `(k, v)` in front, unless `v` is what an unlisted cell reads as. -/
def Memory.consCell (k : Nat) (v : Byte) (m : Memory) : Memory := if v = unlistedByte then m else (k, v) :: m

/-- Cell `k` becomes `v`; the canonical form is kept. -/
def Memory.setByte : Memory → Nat → Byte → Memory
  | [], k, v => Memory.consCell k v []
  | (k', v') :: m, k, v =>
    if k < k' then Memory.consCell k v ((k', v') :: m)
    else if k = k' then Memory.consCell k v m
    else (k', v') :: Memory.setByte m k v

/-- Bits 7 to 0 of a word. -/
def lowByte (v : Word) : Byte := BitVec.ofNat 8 (v.toNat % 256)

/-- Bits 15 to 8 of a word. -/
def highByte (v : Word) : Byte := BitVec.ofNat 8 (v.toNat / 256)

/-- The word made of a high and a low byte: `low + 256 * high` (R163). -/
def wordOfBytes (high low : Byte) : Word := BitVec.ofNat 16 (low.toNat + 256 * high.toNat)

/-- `MemRead(a, 1)`: the word at address `a` (R30). -/
def Memory.read (m : Memory) (a : Nat) : Word := wordOfBytes (m.byteAt (2 * a + 1)) (m.byteAt (2 * a))

/-- `MemWrite(a, 1, v)`: the word at address `a` becomes `v` (R30). -/
def Memory.write (m : Memory) (a : Nat) (v : Word) : Memory :=
  (m.setByte (2 * a) (lowByte v)).setByte (2 * a + 1) (highByte v)

/-- The words written at `a`, `a + 1`, ...; a word for which there is no cell (address 32768 or above, R36) is not written. -/
def Memory.writeWords : Memory → Nat → List Word → Memory
  | m, _, [] => m
  | m, a, w :: ws => if a < Config.memWords then Memory.writeWords (m.write a w) (a + 1) ws else m

/-- Up to `n` words from address `a` upward, stopping at the end of memory: the words `n` successive fetches can read (R71). -/
def Memory.readWords (m : Memory) : Nat → Nat → List Word
  | 0, _ => []
  | n + 1, a => if a < Config.memWords then m.read a :: Memory.readWords m n (a + 1) else []

end Sys2Proof.Machine
end

