-- ==== Sys2Proof/Machine/Ops.lean ====
section
/-! DEFINITION. The named operations over registers, program counter, stack, memory and streams (the primitives of R5), the halt, and taking a
fault: ONE operation, `raise` (R141). There is no return from a fault (R152), so there is no operation beside it. -/

namespace Sys2Proof.Machine

/-- `zext_16` of a Val (R5). -/
def zextVal (v : Val) : Word := v.setWidth 16

/-- `zext_16` of a byte (R5, R127). -/
def zextByte (b : Byte) : Word := b.setWidth 16

/-- A word modulo 32768: its low 15 bits (R74; decision D2, log 12). -/
def reduce (w : Word) : Val := w.setWidth 15

/-- `x[r]` (R10). -/
def State.reg (s : State) (r : RegIdx) : Word := s.regs[r.val]

/-- `x[r] <- v` (R10). -/
def State.setReg (s : State) (r : RegIdx) (v : Word) : State := { s with regs := s.regs.set r.val v r.isLt }

/-- `pc <- t` (R12). -/
def State.setPc (s : State) (t : Word) : State := { s with pc := t }

/-- `pc` past the `n` words of an instruction (R13, R73). `step` uses it only where all `n` words lie in memory, so it does not wrap there. -/
def State.advance (s : State) (n : Nat) : State := { s with pc := s.pc + BitVec.ofNat 16 n }

/-- The stack pointer: the number of words on the stack (R15). -/
def State.sp (s : State) : Nat := s.stack.length

/-- `stack[k]` of R15, the bottom cell being `stack[0]` and the top `stack[sp-1]`. -/
def State.stackCell (s : State) (k : Nat) : Option Word := s.stack.reverse[k]?

/-- `Push(v)` (R15); it cannot fail (R14). -/
def State.push (s : State) (v : Word) : State := { s with stack := v :: s.stack }

/-- `Pop()` (R15): the top word and the state without it; none when `sp = 0`. -/
def State.popTop (s : State) : Option (Word × State) :=
  match s.stack with
  | [] => none
  | v :: rest => some (v, { s with stack := rest })

/-- `MemRead(a, 1)` at a data address, which is a Val and so always in memory (R37). -/
def State.memRead (s : State) (a : Val) : Word := s.mem.read a.toNat

/-- `MemWrite(a, 1, v)` at a data address (R37). -/
def State.memWrite (s : State) (a : Val) (v : Word) : State := { s with mem := s.mem.write a.toNat v }

/-- `Out(b)`: append `b` to the output (R129). -/
def State.emit (s : State) (b : Byte) : State := { s with output := s.output ++ [b] }

/-- `In()`: the first input byte and the state without it (R130); none while no byte is available. -/
def State.nextInput (s : State) : Option (Byte × State) :=
  match s.input with
  | [] => none
  | b :: rest => some (b, { s with input := rest })

/-- `halt(c)`: enter `Halted` with cause `c` and change nothing else (R148). -/
def State.halt (s : State) (c : HaltCause) : State := { s with run := .halted c }

/-- Fault entry (R141), from the state in which the step began, so `s.pc` is `ia`: `run <- Faulted(reason)`, `fault_pc <- ia` (R149; decision D5,
log 15); registers, memory, stack, output and input unchanged; `pc` unspecified, a free value (U3, log 4). -/
def State.faulted (s : State) (reason : FaultReason) : State :=
  { s with run := .faulted reason s.pc, pc := Config.freePc s.freeIndex, freeIndex := s.freeIndex + 1 }

/-- `raise F`: the step's answer is the state after fault entry (R141). -/
def raise (reason : FaultReason) (s : State) : Answer := .next (s.faulted reason)

end Sys2Proof.Machine
end

