-- ==== Sys2Proof/Syntax.lean ====
section
/-! DEFINITION. The syntax of the 22 instructions (30_encoding.md): one constructor per row of spec/opcode_table.json, in its order. -/

namespace Sys2Proof

/-- An operand word that is not invalid (R53): a literal 0..32767 or a register reference. What it means depends on the role of its position
(R54): a source gives a value, a destination gives a register index (a literal 0..7 names a register there). -/
inductive Operand where
  | lit (v : Val)
  | reg (r : RegIdx)
  deriving DecidableEq, Repr

/-- The instruction set (R56). Operands are named `a`, `b`, `c` in ascending address order (R51). -/
inductive Instr where
  | halt
  | set (a b : Operand)
  | push (a : Operand)
  | pop (a : Operand)
  | eq (a b c : Operand)
  | gt (a b c : Operand)
  | jmp (a : Operand)
  | jnz (a b : Operand)
  | jz (a b : Operand)
  | add (a b c : Operand)
  | mult (a b c : Operand)
  | mod (a b c : Operand)
  | and (a b c : Operand)
  | or (a b c : Operand)
  | not (a b : Operand)
  | rmem (a b : Operand)
  | wmem (a b : Operand)
  | call (a : Operand)
  | ret
  | out (a : Operand)
  | inp (a : Operand)
  | noop
  deriving DecidableEq, Repr

/-- The operands in the order `a`, `b`, `c` (R51). -/
def Instr.operands : Instr → List Operand
  | .halt => []
  | .set a b => [a, b]
  | .push a => [a]
  | .pop a => [a]
  | .eq a b c => [a, b, c]
  | .gt a b c => [a, b, c]
  | .jmp a => [a]
  | .jnz a b => [a, b]
  | .jz a b => [a, b]
  | .add a b c => [a, b, c]
  | .mult a b c => [a, b, c]
  | .mod a b c => [a, b, c]
  | .and a b c => [a, b, c]
  | .or a b c => [a, b, c]
  | .not a b => [a, b]
  | .rmem a b => [a, b]
  | .wmem a b => [a, b]
  | .call a => [a]
  | .ret => []
  | .out a => [a]
  | .inp a => [a]
  | .noop => []

/-- The operand in the destination position, for the twelve instructions that have one (R54): always `a`. -/
def Instr.destOperand : Instr → Option Operand
  | .set a _ => some a
  | .pop a => some a
  | .eq a _ _ => some a
  | .gt a _ _ => some a
  | .add a _ _ => some a
  | .mult a _ _ => some a
  | .mod a _ _ => some a
  | .and a _ _ => some a
  | .or a _ _ => some a
  | .not a _ => some a
  | .rmem a _ => some a
  | .inp a => some a
  | .halt => none
  | .push _ => none
  | .jmp _ => none
  | .jnz _ _ => none
  | .jz _ _ => none
  | .wmem _ _ => none
  | .call _ => none
  | .ret => none
  | .out _ => none
  | .noop => none

/-- The number of words: the opcode word and the operand words (R50, R61). -/
def Instr.numWords (i : Instr) : Nat := 1 + i.operands.length

end Sys2Proof
end

