-- ==== Sys2Proof/WellFormed.lean ====
section
/-! DEFINITION. Which terms of `Instr` stand for an instruction the decoder accepts (R54): a literal in a destination position is 0..7. -/

namespace Sys2Proof

/-- The operand is accepted in a destination position: a register reference, or a literal spelling 0..7 (R54, R75). -/
def Operand.isDest : Operand → Bool
  | .lit v => decide (v.toNat < Config.numRegs)
  | .reg _ => true

/-- The destination operand, where the instruction has one, names a register (R54). Every other check of an operand word is made by the types:
a literal is a `Val` and a register number is below 8. -/
def Instr.wellFormed (i : Instr) : Bool :=
  match i.destOperand with
  | none => true
  | some a => a.isDest

end Sys2Proof
end

