-- ==== Sys2Proof/Machine/Operands.lean ====
section
/-! DEFINITION. The operand resolver (40_step_and_operands.md section 3): a source gives a Val (R74), a destination gives a register index (R75).
The class of an operand word is found by `classify` (Decode.lean, R53). -/

namespace Sys2Proof.Machine

/-- `Src` (R74): a literal is its own value; a register reference is the register's content modulo 32768 (decision D2, log 12). It has no side
effect. -/
def src (o : Operand) (s : State) : Val :=
  match o with
  | .lit v => v
  | .reg r => reduce (s.reg r)

/-- `Dst` (R75): the operand word modulo 32768, which must be 0..7; it reads no register. None for a literal 8..32767. -/
def dst (o : Operand) : Option RegIdx :=
  match o with
  | .lit v => if h : v.toNat < Config.numRegs then some ⟨v.toNat, h⟩ else none
  | .reg r => some r

/-- Resolve a destination and go on with its index, or raise `RegisterIndexOutOfRange` (R75, R144). -/
def withDst (a : Operand) (s : State) (k : RegIdx → Answer) : Answer :=
  match dst a with
  | none => raise .registerIndexOutOfRange s
  | some r => k r

/-- The common end of the instructions that write a word to their destination: `x[ra] <- v`, and `pc` past the `n` words (R73). -/
def writeDst (a : Operand) (n : Nat) (v : Word) (s : State) : Answer :=
  withDst a s fun r => .next ((s.advance n).setReg r v)

end Sys2Proof.Machine
end

