-- ==== Sys2Proof/Machine/Arithmetic.lean ====
section
/-! DEFINITION. ADD, MULT, MOD, AND, OR, NOT (44_arithmetic_logic.md). -/

namespace Sys2Proof.Machine

/-- ADD (R111). -/
def execAdd (a b c : Operand) (s : State) : Answer := writeDst a 4 (zextVal (aluAdd (src b s) (src c s))) s

/-- MULT (R112). -/
def execMult (a b c : Operand) (s : State) : Answer := writeDst a 4 (zextVal (aluMult (src b s) (src c s))) s

/-- MOD (R113): `DivideByZero` when the divisor is 0, tested after the destination and before the write (R78, R145). -/
def execMod (a b c : Operand) (s : State) : Answer :=
  withDst a s fun r =>
    match aluMod (src b s) (src c s) with
    | none => raise .divideByZero s
    | some v => .next ((s.advance 4).setReg r (zextVal v))

/-- AND (R114). -/
def execAnd (a b c : Operand) (s : State) : Answer := writeDst a 4 (zextVal (aluAnd (src b s) (src c s))) s

/-- OR (R115). -/
def execOr (a b c : Operand) (s : State) : Answer := writeDst a 4 (zextVal (aluOr (src b s) (src c s))) s

/-- NOT (R116). -/
def execNot (a b : Operand) (s : State) : Answer := writeDst a 3 (zextVal (aluNot (src b s))) s

end Sys2Proof.Machine
end

