-- ==== Sys2Proof/Machine/Flags.lean ====
section
/-! DEFINITION. The hardware has no flags and no condition codes (R17). What stands in their place: a comparison writes 0 or 1 to a register
(42_compare.md), and JNZ and JZ test a resolved value against zero (R106, R107). -/

namespace Sys2Proof.Machine

/-- The Val a comparison writes: exactly 0 or 1 (42_compare.md). -/
def boolVal (p : Bool) : Val := if p then 1 else 0

/-- EQ's result (R100). -/
def cmpEq (b c : Val) : Val := boolVal (decide (b = c))

/-- GT's result: unsigned, strict (R101). -/
def cmpGt (b c : Val) : Val := boolVal (decide (c.toNat < b.toNat))

/-- The condition JZ tests, and JNZ tests the negation of (R106, R107). -/
def isZero (v : Val) : Bool := decide (v = 0)

end Sys2Proof.Machine
end

