-- ==== Sys2Proof/Machine/Compare.lean ====
section
/-! DEFINITION. EQ, GT (42_compare.md). -/

namespace Sys2Proof.Machine

/-- EQ (R100): 1 if `vb = vc`, else 0. -/
def execEq (a b c : Operand) (s : State) : Answer := writeDst a 4 (zextVal (cmpEq (src b s) (src c s))) s

/-- GT (R101): 1 if `vb > vc` unsigned, else 0. -/
def execGt (a b c : Operand) (s : State) : Answer := writeDst a 4 (zextVal (cmpGt (src b s) (src c s))) s

end Sys2Proof.Machine
end

