-- ==== Sys2Proof/Machine/Control.lean ====
section
/-! DEFINITION. JMP, JNZ, JZ, CALL, RET (43_control_transfer.md). A target is a Val and is not checked when the jump executes (R104). -/

namespace Sys2Proof.Machine

/-- JMP (R105): `pc <- va`. -/
def execJmp (a : Operand) (s : State) : Answer := .next (s.setPc (zextVal (src a s)))

/-- JNZ (R106): `pc <- vb` if `va` is not 0, else `pc` past the instruction. -/
def execJnz (a b : Operand) (s : State) : Answer :=
  .next (if isZero (src a s) then s.advance 3 else s.setPc (zextVal (src b s)))

/-- JZ (R107): `pc <- vb` if `va` is 0, else `pc` past the instruction. -/
def execJz (a b : Operand) (s : State) : Answer :=
  .next (if isZero (src a s) then s.setPc (zextVal (src b s)) else s.advance 3)

/-- CALL (R108): push `ia + 2`, unreduced, then `pc <- va`. -/
def execCall (a : Operand) (s : State) : Answer :=
  .next ((s.push (s.advance 2).pc).setPc (zextVal (src a s)))

/-- RET (R109): the raw popped word to `pc`, unreduced and unchecked (decision D19, log 24), or a halt on an empty stack (R147; decision D9,
log 19). -/
def execRet (s : State) : Answer :=
  match s.popTop with
  | none => .next ((s.advance 1).halt .stackUnderflow)
  | some (v, s') => .next (s'.setPc v)

end Sys2Proof.Machine
end

