-- ==== Sys2Proof/Machine/DataMovement.lean ====
section
/-! DEFINITION. SET, PUSH, POP (41_data_movement_and_stack.md). Each meaning starts from the state in which the step began (`pc` is `ia`). -/

namespace Sys2Proof.Machine

/-- SET (R90): `x[ra] <- vb`. -/
def execSet (a b : Operand) (s : State) : Answer := writeDst a 3 (zextVal (src b s)) s

/-- PUSH (R91): push `va`. -/
def execPush (a : Operand) (s : State) : Answer := .next ((s.advance 2).push (zextVal (src a s)))

/-- POP (R92): the raw popped word to `x[ra]` (decision D18, log 23), or a halt on an empty stack (R147; `pc` and cause: decision D9, log 19). The
destination is checked before the stack (R73, R78; decision D4, log 14). -/
def execPop (a : Operand) (s : State) : Answer :=
  withDst a s fun r =>
    match s.popTop with
    | none => .next ((s.advance 2).halt .stackUnderflow)
    | some (v, s') => .next ((s'.advance 2).setReg r v)

end Sys2Proof.Machine
end

