-- ==== Sys2Proof/Machine/MemoryAccess.lean ====
section
/-! DEFINITION. RMEM, WMEM (45_memory_access.md): the only load and the only store. The address is a Val, so neither can leave memory (R37). -/

namespace Sys2Proof.Machine

/-- RMEM (R120): the raw word at `vb` to `x[ra]` (decision D18, log 23). -/
def execRmem (a b : Operand) (s : State) : Answer := writeDst a 3 (s.memRead (src b s)) s

/-- WMEM (R121): `vb` to the cell at `va`; operand `a` is a source (R54). -/
def execWmem (a b : Operand) (s : State) : Answer :=
  .next ((s.advance 3).memWrite (src a s) (zextVal (src b s)))

end Sys2Proof.Machine
end

