-- ==== Sys2Proof/Machine/System.lean ====
section
/-! DEFINITION. HALT, OUT, IN, NOOP (46_io_and_system.md). -/

namespace Sys2Proof.Machine

/-- HALT (R125): `Halted(HaltInstruction)`, `pc` past the opcode word. -/
def execHalt (s : State) : Answer := .next ((s.advance 1).halt .haltInstruction)

/-- OUT (R126): emit the low 8 bits of `va` (decision D11, log 22). -/
def execOut (a : Operand) (s : State) : Answer := .next ((s.advance 2).emit ((src a s).setWidth 8))

/-- IN (R127): the next input byte, zero-extended, to `x[ra]`. The destination is checked before a byte is asked for (decision D10, log 20). While
no byte is available the core waits with all of its state, `pc` included, as it was (R130, R158): the answer is the state itself.
DESIGN CHOICE (log 7, safe): that a waiting core is a step that changes nothing. -/
def execIn (a : Operand) (s : State) : Answer :=
  withDst a s fun r =>
    match s.nextInput with
    | none => .next s
    | some (b, s') => .next ((s'.advance 2).setReg r (zextByte b))

/-- NOOP (R128): only `pc` moves. -/
def execNoop (s : State) : Answer := .next (s.advance 1)

end Sys2Proof.Machine
end

