-- ==== Sys2Proof/Decode.lean ====
section
/-! DEFINITION. The decoder, total on every list of words and rejecting by the spec's fault names (R50 to R59, R72 to R75), and the encoder.
Words are taken one at a time, each operand word classified before the next is taken, so the first fault of R78 is the one reported. -/

namespace Sys2Proof

/-! ### Operand words -/

/-- The three classes of R53: literal 0..32767, register reference 32768..32775, invalid 32776..65535. -/
def classify (w : Word) : Option Operand :=
  if w.toNat < Config.regRefBase then some (.lit (BitVec.ofNat 15 w.toNat))
  else if h : w.toNat - Config.regRefBase < Config.numRegs then some (.reg ⟨w.toNat - Config.regRefBase, h⟩)
  else none

/-- Take one source operand word: no word left is a fetch past the end of memory (R71), an invalid word is `InvalidOperand` (R143). -/
def takeSrc : List Word → Except FaultReason (Operand × List Word)
  | [] => .error .memoryOutOfBounds
  | w :: ws =>
    match classify w with
    | none => .error .invalidOperand
    | some a => .ok (a, ws)

/-- Take one destination operand word: `InvalidOperand` is tested before `RegisterIndexOutOfRange` (R75, R150; decision D3, log 13). -/
def takeDst : List Word → Except FaultReason (Operand × List Word)
  | [] => .error .memoryOutOfBounds
  | w :: ws =>
    match classify w with
    | none => .error .invalidOperand
    | some a => if a.isDest then .ok (a, ws) else .error .registerIndexOutOfRange

/-! ### The six formats of R55 (`d` destination, `v` source) -/

/-- F0: no operand words. -/
def decodeF0 (i : Instr) (ws : List Word) : Except FaultReason (Instr × List Word) := .ok (i, ws)

/-- F1v: one source. -/
def decodeF1v (mk : Operand → Instr) (ws : List Word) : Except FaultReason (Instr × List Word) :=
  match takeSrc ws with
  | .error e => .error e
  | .ok (a, rest) => .ok (mk a, rest)

/-- F1d: one destination. -/
def decodeF1d (mk : Operand → Instr) (ws : List Word) : Except FaultReason (Instr × List Word) :=
  match takeDst ws with
  | .error e => .error e
  | .ok (a, rest) => .ok (mk a, rest)

/-- F2dv: a destination, then a source. -/
def decodeF2dv (mk : Operand → Operand → Instr) (ws : List Word) : Except FaultReason (Instr × List Word) :=
  match takeDst ws with
  | .error e => .error e
  | .ok (a, rest) => decodeF1v (mk a) rest

/-- F2vv: two sources. -/
def decodeF2vv (mk : Operand → Operand → Instr) (ws : List Word) : Except FaultReason (Instr × List Word) :=
  match takeSrc ws with
  | .error e => .error e
  | .ok (a, rest) => decodeF1v (mk a) rest

/-- F3dvv: a destination, then two sources. -/
def decodeF3dvv (mk : Operand → Operand → Operand → Instr) (ws : List Word) : Except FaultReason (Instr × List Word) :=
  match takeDst ws with
  | .error e => .error e
  | .ok (a, rest) => decodeF2vv (mk a) rest

/-! ### The opcode word -/

/-- The opcode map of R56, matched on the whole word (R52); any other word is `UnknownOpcode` and consumes no operand word (R58, R72).
Of the numbers, 0, 9, 11 and 19 are stated by the source, the other 18 are the spec's decision D1 (R57, log 11). -/
def decodeOpcode (w : Word) (ws : List Word) : Except FaultReason (Instr × List Word) :=
  match w.toNat with
  | 0 => decodeF0 .halt ws
  | 1 => decodeF2dv .set ws
  | 2 => decodeF1v .push ws
  | 3 => decodeF1d .pop ws
  | 4 => decodeF3dvv .eq ws
  | 5 => decodeF3dvv .gt ws
  | 6 => decodeF1v .jmp ws
  | 7 => decodeF2vv .jnz ws
  | 8 => decodeF2vv .jz ws
  | 9 => decodeF3dvv .add ws
  | 10 => decodeF3dvv .mult ws
  | 11 => decodeF3dvv .mod ws
  | 12 => decodeF3dvv .and ws
  | 13 => decodeF3dvv .or ws
  | 14 => decodeF2dv .not ws
  | 15 => decodeF2dv .rmem ws
  | 16 => decodeF2vv .wmem ws
  | 17 => decodeF1v .call ws
  | 18 => decodeF0 .ret ws
  | 19 => decodeF1v .out ws
  | 20 => decodeF1d .inp ws
  | 21 => decodeF0 .noop ws
  | _ => .error (.unknownOpcode w)

/-- The instruction at the head of a list of words, with the words after it (R61), or the first fault of R78. An empty list is a fetch past the
end of memory (R71). -/
def decode : List Word → Except FaultReason (Instr × List Word)
  | [] => .error .memoryOutOfBounds
  | w :: ws => decodeOpcode w ws

/-! ### The encoder -/

/-- The opcode number of each instruction, the first column of R56 (decision D1, log 11). -/
def Instr.opcode : Instr → Nat
  | .halt => 0
  | .set _ _ => 1
  | .push _ => 2
  | .pop _ => 3
  | .eq _ _ _ => 4
  | .gt _ _ _ => 5
  | .jmp _ => 6
  | .jnz _ _ => 7
  | .jz _ _ => 8
  | .add _ _ _ => 9
  | .mult _ _ _ => 10
  | .mod _ _ _ => 11
  | .and _ _ _ => 12
  | .or _ _ _ => 13
  | .not _ _ => 14
  | .rmem _ _ => 15
  | .wmem _ _ => 16
  | .call _ => 17
  | .ret => 18
  | .out _ => 19
  | .inp _ => 20
  | .noop => 21

/-- The operand word of an operand (R53): a literal is its own number, register `r` is `32768 + r`. -/
def Operand.word : Operand → Word
  | .lit v => BitVec.ofNat 16 v.toNat
  | .reg r => BitVec.ofNat 16 (Config.regRefBase + r.val)

/-- The words of an instruction, opcode word first, then `a`, `b`, `c` (R51). -/
def encode (i : Instr) : List Word := BitVec.ofNat 16 i.opcode :: i.operands.map Operand.word

/-! ### The opcode table's numbering of bits -/

/-- The `Config.maxInstrWords` words of an instruction given as one number, bit 0 the least significant bit of the first word and every bit from
`nbits` up zero. -/
def tableWords (nbits w : Nat) : List Word :=
  let v := w % 2 ^ nbits
  [BitVec.ofNat 16 v, BitVec.ofNat 16 (v / 2 ^ 16), BitVec.ofNat 16 (v / 2 ^ 32), BitVec.ofNat 16 (v / 2 ^ 48)]

/-- The instruction the decoder reads from an instruction numbered as spec/opcode_table.json numbers it; none where it rejects. -/
def decodeTableWord (nbits w : Nat) : Option Instr :=
  match decode (tableWords nbits w) with
  | .ok (i, _) => some i
  | .error _ => none

end Sys2Proof
end

