-- ==== Sys2Proof/Machine/Fetch.lean ====
section
/-! DEFINITION. What a step fetches: the words from `pc` to the end of memory, as many as the longest instruction has, given to the decoder. It
takes them one by one, and running out of them is the fetch at `pc >= 32768` of R71. -/

namespace Sys2Proof.Machine

/-- The words a step may fetch, from `pc` upward (R51, R71). A fetch only reads (R19, R71). -/
def State.fetchWords (s : State) : List Word := s.mem.readWords Config.maxInstrWords s.pc.toNat

/-- The instruction at `pc`, or the first fault met in the order of R78. -/
def State.fetchDecode (s : State) : Except FaultReason Instr :=
  match decode s.fetchWords with
  | .ok (i, _) => .ok i
  | .error e => .error e

/-- Words placed where the next step fetches: at `pc` and upward. -/
def State.placeWords (s : State) (ws : List Word) : State := { s with mem := s.mem.writeWords s.pc.toNat ws }

end Sys2Proof.Machine
end

