-- ==== Sys2Proof/Machine/Step.lean ====
section
/-! DEFINITION. The step (40_step_and_operands.md R70) and the host's way to place one instruction where it fetches. -/

namespace Sys2Proof.Machine

/-- One step. In `Running`: fetch and decode at `pc`, then execute, or take the fault (R70, R78, R141). In `Halted` and `Faulted`, which are final
(R20), no step is taken: the machine stays as it is. DESIGN CHOICE (log 6, safe): that this is an answer `next` with the same state. -/
def step (s : State) : Host.Outcome State Fault Refusal :=
  match s.run with
  | .running =>
    match s.fetchDecode with
    | .ok i => exec i s
    | .error reason => raise reason s
  | .halted _ => .next s
  | .faulted _ _ => .next s

/-- The instruction numbered as spec/opcode_table.json numbers it, stored where `step` fetches (log 3). A word for which there is no cell, with
`pc` near the end of memory, is not stored. -/
def State.withFetchWord (s : State) (nbits w : Nat) : State := s.placeWords (tableWords nbits w)

end Sys2Proof.Machine
end

