-- ==== Sys2Proof/Pseudocode.lean ====
section
/-! DEFINITION. The spec's own pseudocode of a step (R70 to R75) and of the 22 `Execute` parts (files 41 to 46), transcribed on raw words and
natural numbers: each word is fetched with `pc` moving past it and classified before the next. The model proper (Machine/Step.lean) decodes first
and executes after; a statement says that the two are one machine. Nothing of the model is defined by this file. -/

namespace Sys2Proof.Pseudocode

open Sys2Proof.Machine

/-- `Fetch()` (R71). -/
def fetch (s : State) : Except FaultReason (Word × State) :=
  if 32768 ≤ s.pc.toNat then .error .memoryOutOfBounds else .ok (s.mem.read s.pc.toNat, s.setPc (s.pc + 1))

/-- `Src(w)` (R74), as a number. -/
def src (s : State) (w : Word) : Except FaultReason Nat :=
  if w.toNat ≤ 32767 then .ok w.toNat
  else if w.toNat ≤ 32775 then .ok ((s.reg (Fin.ofNat 8 (w.toNat - 32768))).toNat % 32768)
  else .error .invalidOperand

/-- `Dst(w)` (R75). -/
def dst (w : Word) : Except FaultReason RegIdx :=
  if 32775 < w.toNat then .error .invalidOperand
  else if 7 < w.toNat % 32768 then .error .registerIndexOutOfRange
  else .ok (Fin.ofNat 8 (w.toNat % 32768))

/-- Fetch an operand word and resolve it as a source (R70, R73). -/
def fetchSrc (s : State) : Except FaultReason (Nat × State) := do
  let (w, s) ← fetch s
  let v ← src s w
  return (v, s)

/-- Fetch an operand word and resolve it as a destination (R70, R73). -/
def fetchDst (s : State) : Except FaultReason (RegIdx × State) := do
  let (w, s) ← fetch s
  let r ← dst w
  return (r, s)

/-- The Word with the numeric value `n` (R5, `zext_16`). -/
def word (n : Nat) : Word := BitVec.ofNat 16 n

/-- The instructions of format F3dvv: operands, then `x[ra] <- f va vb`, where `f` may raise. -/
def threeOperand (f : Nat → Nat → Except FaultReason Nat) (s : State) : Except FaultReason State := do
  let (ra, s) ← fetchDst s
  let (vb, s) ← fetchSrc s
  let (vc, s) ← fetchSrc s
  let v ← f vb vc
  return s.setReg ra (word v)

/-- The body of a step from the state in which it begins: the state it leaves, or the first `raise`. -/
def body (begin : State) : Except FaultReason State := do
  let (w0, s) ← fetch begin
  match w0.toNat with
  | 0 => return s.halt .haltInstruction
  | 1 => do
    let (ra, s) ← fetchDst s
    let (vb, s) ← fetchSrc s
    return s.setReg ra (word vb)
  | 2 => do
    let (va, s) ← fetchSrc s
    return s.push (word va)
  | 3 => do
    let (ra, s) ← fetchDst s
    match s.stack with
    | [] => return s.halt .stackUnderflow
    | v :: rest => return (State.setReg { s with stack := rest } ra v)
  | 4 => threeOperand (fun vb vc => .ok (if vb = vc then 1 else 0)) s
  | 5 => threeOperand (fun vb vc => .ok (if vb > vc then 1 else 0)) s
  | 6 => do
    let (va, s) ← fetchSrc s
    return s.setPc (word va)
  | 7 => do
    let (va, s) ← fetchSrc s
    let (vb, s) ← fetchSrc s
    return if va ≠ 0 then s.setPc (word vb) else s
  | 8 => do
    let (va, s) ← fetchSrc s
    let (vb, s) ← fetchSrc s
    return if va = 0 then s.setPc (word vb) else s
  | 9 => threeOperand (fun vb vc => .ok ((vb + vc) % 32768)) s
  | 10 => threeOperand (fun vb vc => .ok ((vb * vc) % 32768)) s
  | 11 => threeOperand (fun vb vc => if vc = 0 then .error .divideByZero else .ok (vb % vc)) s
  | 12 => threeOperand (fun vb vc => .ok (vb &&& vc)) s
  | 13 => threeOperand (fun vb vc => .ok (vb ||| vc)) s
  | 14 => do
    let (ra, s) ← fetchDst s
    let (vb, s) ← fetchSrc s
    return s.setReg ra (word (32767 - vb))
  | 15 => do
    let (ra, s) ← fetchDst s
    let (vb, s) ← fetchSrc s
    return s.setReg ra (s.mem.read vb)
  | 16 => do
    let (va, s) ← fetchSrc s
    let (vb, s) ← fetchSrc s
    return { s with mem := s.mem.write va (word vb) }
  | 17 => do
    let (va, s) ← fetchSrc s
    return (s.push s.pc).setPc (word va)
  | 18 =>
    match s.stack with
    | [] => return s.halt .stackUnderflow
    | v :: rest => return (State.setPc { s with stack := rest } v)
  | 19 => do
    let (va, s) ← fetchSrc s
    return s.emit (BitVec.ofNat 8 (va % 256))
  | 20 => do
    let (ra, s) ← fetchDst s
    match s.input with
    | [] => return begin
    | ch :: rest => return (State.setReg { s with input := rest } ra (word ch.toNat))
  | 21 => return s
  | _ => .error (.unknownOpcode w0)

/-- The step (R70, R141). Where the spec says that no step is taken or enabled (R20, R130) the machine stays as it is, as in the model (log 6,
log 7). -/
def step (s : State) : Answer :=
  if s.run = .running then
    match body s with
    | .ok t => .next t
    | .error reason => raise reason s
  else .next s

end Sys2Proof.Pseudocode
end

