-- ==== Sys2Proof/Machine/Boundary.lean ====
section
/-! DEFINITION. The core's contacts with its environment (R3; D13): the image load between reset and the first step (R162 to R164), input bytes
supplied between steps (R130), and the report at the end of a run (R166). The output channel is `State.output` (R129). -/

namespace Sys2Proof.Machine

/-- The loader's pairing of a byte stream into words: byte `2i` low, byte `2i + 1` high (R163). An odd number of bytes is refused (U12). -/
def imageOfBytes : List Byte → Option (List Word)
  | [] => some []
  | [_] => none
  | low :: high :: rest =>
    match imageOfBytes rest with
    | none => none
    | some ws => some (wordOfBytes high low :: ws)

/-- Place the image at address 0, each word unchanged (R162); an image of more than 32768 words is refused (R164; decision D14, log 21). -/
def loadImage (image : List Word) (s : State) : Option State :=
  if image.length ≤ Config.memWords then some { s with mem := s.mem.writeWords 0 image } else none

/-- Reset and load: the state in which the first step of a run is taken (R160, R162; log 3). -/
def boot (image : List Word) : Option State := loadImage image State.reset

/-- The environment makes further input bytes available (R130). It changes nothing else (R151). -/
def State.supplyInput (s : State) (bytes : List Byte) : State := { s with input := s.input ++ bytes }

/-- What the caller receives when a run ends (R166). -/
inductive Report where
  | halted (cause : HaltCause)
  | faulted (reason : FaultReason) (faultPc : Word)
  deriving DecidableEq, Repr

/-- The report; none while the core is `Running` (R166). -/
def State.report (s : State) : Option Report :=
  match s.run with
  | .running => none
  | .halted c => some (.halted c)
  | .faulted reason faultPc => some (.faulted reason faultPc)

/-- The fault report as numbers, under a numbering of the fault kinds that the caller supplies: the open parameter FAULT_CODE_ENCODING (R4, D12,
U10), taken as an argument. -/
def Report.code (faultCodeEncoding : FaultReason → Nat) : Report → Option (Nat × Word)
  | .halted _ => none
  | .faulted reason faultPc => some (faultCodeEncoding reason, faultPc)

end Sys2Proof.Machine
end

