-- ==== Sys2Proof/Safety.lean ====
section
/-! DEFINITION. The terms in which statements speak of the machine: a safe state, the invariant, the states a run reaches, what a step keeps, and
agreement below bit 15. -/

namespace Sys2Proof.Machine

/-! ### Safe states and the invariant -/

/-- The machine has taken none of the five faults (R140): `Running`, or ended in a halt, which is "not an error" (R147, R148). -/
def State.Safe (s : State) : Prop := ∀ reason faultPc, s.run ≠ .faulted reason faultPc

/-- The invariant of the machine (R16): memory in canonical form, every stack cell at most 32768, and `pc` at most 32768 unless a fault has made
it unspecified (R22). -/
structure State.Inv (s : State) : Prop where
  memory : s.mem.wf
  stack : ∀ v ∈ s.stack, v.toNat ≤ 32768
  pc : s.Safe → s.pc.toNat ≤ 32768

/-- The states of the runs of the machine: an image is loaded (R162), then steps are taken, and between steps the environment supplies input
(R3, R130). -/
inductive Reachable : State → Prop where
  | boot {image : List Word} {s : State} : Machine.boot image = some s → Reachable s
  | step {s t : State} : Reachable s → Machine.step s = .next t → Reachable t
  | input {s : State} (bytes : List Byte) : Reachable s → Reachable (s.supplyInput bytes)

/-! ### Frames: what a state `t` keeps of a state `s` -/

/-- Every register but `r` is as before. -/
def KeepsOtherRegs (r : RegIdx) (s t : State) : Prop := ∀ q, q ≠ r → t.reg q = s.reg q

/-- Every register is as before. -/
def KeepsRegs (s t : State) : Prop := ∀ q, t.reg q = s.reg q

/-- Every byte of memory reads as before. -/
def KeepsMem (s t : State) : Prop := ∀ k, t.mem.byteAt k = s.mem.byteAt k

/-- Every byte of memory outside the word at address `a` reads as before. -/
def KeepsMemOutside (a : Nat) (s t : State) : Prop := ∀ k, k ≠ 2 * a → k ≠ 2 * a + 1 → t.mem.byteAt k = s.mem.byteAt k

/-- Both character streams are as before. -/
def KeepsStreams (s t : State) : Prop := t.output = s.output ∧ t.input = s.input

/-- The run state, with its status fields, is as before, and so is the model's own counter. -/
def KeepsRun (s t : State) : Prop := t.run = s.run ∧ t.freeIndex = s.freeIndex

/-- The frame of an instruction that writes register `r` and nothing else but `pc`. -/
def RegisterFrame (r : RegIdx) (s t : State) : Prop :=
  KeepsOtherRegs r s t ∧ KeepsMem s t ∧ t.stack = s.stack ∧ KeepsStreams s t ∧ KeepsRun s t

/-- The frame of an instruction that writes nothing but `pc`. -/
def PcFrame (s t : State) : Prop :=
  KeepsRegs s t ∧ KeepsMem s t ∧ t.stack = s.stack ∧ KeepsStreams s t ∧ KeepsRun s t

/-- A halt with cause `c` (R148): the run state and the cause, and nothing else but `pc`. -/
def HaltFrame (c : HaltCause) (s t : State) : Prop :=
  t.run = .halted c ∧ KeepsRegs s t ∧ KeepsMem s t ∧ t.stack = s.stack ∧ KeepsStreams s t ∧ t.freeIndex = s.freeIndex

/-- The frame of fault entry (R141): registers, memory, stack and both streams are as before. -/
def FaultFrame (s t : State) : Prop := KeepsRegs s t ∧ KeepsMem s t ∧ t.stack = s.stack ∧ KeepsStreams s t

/-- The step from `s` enters `Faulted(reason)` and changes no register, memory byte, stack cell or stream (R141). -/
def TakesFault (reason : FaultReason) (s : State) : Prop :=
  ∃ t faultPc, step s = .next t ∧ t.run = .faulted reason faultPc ∧ FaultFrame s t

/-! ### Agreement below bit 15 -/

/-- The two states are the same but for bit 15 of the registers. -/
structure AgreeBelowBit15 (s t : State) : Prop where
  regs : ∀ q, (s.reg q).toNat % 32768 = (t.reg q).toNat % 32768
  pc : s.pc = t.pc
  stack : s.stack = t.stack
  mem : s.mem = t.mem
  run : s.run = t.run
  output : s.output = t.output
  input : s.input = t.input
  freeIndex : s.freeIndex = t.freeIndex

end Sys2Proof.Machine
end

