-- ==== Sys2Proof/Certificates/Slice0/Obligations.lean ====
section
/-! DEFINITION. The statements about the model, for the provers. Each docstring names the rule or section of spec/ it formalises. "decision D<n>" is a
choice the spec makes for its silent source (92_eei_decisions.md); "log <n>" is notes/assumptions/<n>.md. -/

open Sys2Proof Sys2Proof.Machine

/-! ## Encoding -/

/-- 30_encoding.md sections 1 to 4: the words of a well-formed instruction decode to it, every operand at every value, and the words after it are left
alone. The opcode numbers are decision D1 (log 11). -/
def Obligations.DecodeOfEncodeGivesInstruction : Prop :=
  ∀ (i : Instr) (rest : List Word), i.wellFormed = true → decode (encode i ++ rest) = .ok (i, rest)

/-- The other direction: what the decoder accepts is exactly the words of the well-formed instruction it gives, so no bit is ignored and each word has one
meaning. -/
def Obligations.EncodeOfDecodeGivesWords : Prop :=
  ∀ (ws rest : List Word) (i : Instr), decode ws = .ok (i, rest) → i.wellFormed = true ∧ ws = encode i ++ rest

/-- R52: the opcode word is matched whole. Below 22 it selects the instruction of that number and is never an unknown opcode; from 22 up it is the unknown
opcode it is, whatever follows. In bits: bits 15 to 5 zero and bits 4 to 0 at most 21. -/
def Obligations.OpcodeWordMatchedWhole : Prop :=
  ∀ (w : Word) (ws : List Word),
    (w.toNat ≤ 21 ↔ w.extractLsb' 5 11 = 0 ∧ (w.extractLsb' 0 5).toNat ≤ 21) ∧
    (w.toNat ≤ 21 → (∃ operandWords i, decode (w :: operandWords) = .ok (i, []) ∧ i.opcode = w.toNat) ∧
      ∀ v, decode (w :: ws) ≠ .error (.unknownOpcode v)) ∧
    (∀ i rest, decode (w :: ws) = .ok (i, rest) → i.opcode = w.toNat) ∧
    (22 ≤ w.toNat → decode (w :: ws) = .error (.unknownOpcode w))

/-- 30_encoding.md section 3: the three classes of an operand word. The clauses on bits are the spec's own restatement of the three decimal ranges, which it
marks as derived from them. -/
def Obligations.OperandWordClasses : Prop :=
  ∀ w : Word,
    (w.toNat ≤ 32767 → ∃ v : Val, classify w = some (.lit v) ∧ v.toNat = w.toNat) ∧
    (32768 ≤ w.toNat → w.toNat ≤ 32775 → ∃ r : RegIdx, classify w = some (.reg r) ∧ r.val = w.toNat - 32768) ∧
    (32776 ≤ w.toNat → classify w = none) ∧
    (w.getLsbD 15 = false ↔ w.toNat ≤ 32767) ∧
    (w.getLsbD 15 = true ∧ w.extractLsb' 3 12 = 0 ↔ 32768 ≤ w.toNat ∧ w.toNat ≤ 32775) ∧
    (w.getLsbD 15 = true ∧ w.extractLsb' 3 12 ≠ 0 ↔ 32776 ≤ w.toNat) ∧
    (32768 ≤ w.toNat → w.toNat ≤ 32775 → (w.extractLsb' 0 3).toNat = w.toNat - 32768)

/-- Words written out from the spec's encodings and examples decode to the instructions they stand for: one or more of every family (files 41 to 46). -/
def Obligations.SampleWordsDecode : Prop :=
  decode [1, 32771, 1234] = .ok (.set (.reg 3) (.lit 1234), []) ∧
  decode [3, 2] = .ok (.pop (.lit 2), []) ∧
  decode [5, 32768, 5, 4] = .ok (.gt (.reg 0) (.lit 5) (.lit 4), []) ∧
  decode [7, 32775, 50] = .ok (.jnz (.reg 7) (.lit 50), []) ∧
  decode [9, 32768, 32769, 4, 19, 32768] = .ok (.add (.reg 0) (.reg 1) (.lit 4), [19, 32768]) ∧
  decode [16, 1000, 32769] = .ok (.wmem (.lit 1000) (.reg 1), []) ∧
  decode [19, 32768] = .ok (.out (.reg 0), []) ∧
  decode [0, 0] = .ok (.halt, [0])

/-- `Dst`, 40_step_and_operands.md section 3: the four ranges of a destination word (decision D3, log 13, for the last), and the index is the word modulo
32768. -/
def Obligations.DestinationWordRanges : Prop :=
  ∀ (w : Word) (ws : List Word),
    (32776 ≤ w.toNat → takeDst (w :: ws) = .error .invalidOperand) ∧
    (8 ≤ w.toNat → w.toNat ≤ 32767 → takeDst (w :: ws) = .error .registerIndexOutOfRange) ∧
    (∀ r : RegIdx, w.toNat = r.val ∨ w.toNat = 32768 + r.val →
      ∃ a, takeDst (w :: ws) = .ok (a, ws) ∧ dst a = some r ∧ w.toNat % 32768 = r.val)

/-- `Src`, 40_step_and_operands.md section 3: a literal is its own value, a register reference is the register's content modulo 32768 (decision D2, log 12),
an invalid word is a fault. -/
def Obligations.SourceWordRanges : Prop :=
  ∀ (w : Word) (ws : List Word) (s : State),
    (32776 ≤ w.toNat → takeSrc (w :: ws) = .error .invalidOperand) ∧
    (w.toNat ≤ 32767 → ∃ o, takeSrc (w :: ws) = .ok (o, ws) ∧ (src o s).toNat = w.toNat) ∧
    (∀ r : RegIdx, w.toNat = 32768 + r.val →
      ∃ o, takeSrc (w :: ws) = .ok (o, ws) ∧ (src o s).toNat = (s.reg r).toNat % 32768)

/-- R50: an instruction is 1 to 4 words, one opcode word and its operand words; the number is fixed by the opcode alone; the decoder takes exactly them. -/
def Obligations.LengthFixedByOpcode : Prop :=
  (∀ i j : Instr, i.opcode = j.opcode → i.operands.length = j.operands.length) ∧
  (∀ i : Instr, i.numWords = 1 + i.operands.length ∧ i.operands.length ≤ 3) ∧
  (∀ (ws rest : List Word) (i : Instr), decode ws = .ok (i, rest) → ws.length = i.numWords + rest.length)

/-! ## The step -/

/-- 40_step_and_operands.md section 1: a running machine executes the instruction that the words from `pc` decode to. What `step` adds around `exec` is only
fetching; each meaning moves `pc` itself. -/
def Obligations.StepRunsDecodedInstruction : Prop :=
  ∀ (s : State) (i : Instr) (rest : List Word), s.run = .running →
    decode (s.mem.readWords 4 s.pc.toNat) = .ok (i, rest) → step s = exec i s

/-- The same from the memory side: where the cells from `pc` upward hold the words of a well-formed instruction, the step is that instruction's. -/
def Obligations.StepRunsInstructionInMemory : Prop :=
  ∀ (s : State) (i : Instr), s.run = .running → i.wellFormed = true → s.pc.toNat + i.numWords ≤ 32768 →
    (∀ k w, (encode i)[k]? = some w → s.mem.read (s.pc.toNat + k) = w) → step s = exec i s

/-- 40_step_and_operands.md sections 1 to 4, the whole step: decoding first and executing after is the same machine as the spec's pseudocode, which fetches and
classifies one word at a time, in every state and for every fault order (decision D4, log 14). -/
def Obligations.StepFollowsPseudocode : Prop := ∀ s : State, step s = Pseudocode.step s

/-- 60_exceptions.md section 1: `MemoryOutOfBounds` is the fetch of any word, opcode or operand, at 32768 or above, and nothing else raises it: a step that
does began there, or had good words up to the end of memory and an operand word missing (that a bad word before the missing one wins is decision D4, log
14). So RMEM and WMEM, once fetched, never raise it for their data address. The frame of fault entry is decision D6 (log 16). -/
def Obligations.FetchPastEndFaults : Prop :=
  ∀ s : State, s.run = .running →
    (32768 ≤ s.pc.toNat → TakesFault .memoryOutOfBounds s) ∧
    (∀ (i : Instr) (k : Nat), i.wellFormed = true → k < i.operands.length → s.fetchWords = (encode i).take (k + 1) →
      TakesFault .memoryOutOfBounds s) ∧
    (∀ t faultPc, step s = .next t → t.run = .faulted .memoryOutOfBounds faultPc →
      (32768 ≤ s.pc.toNat ∨ ∃ (i : Instr) (k : Nat), i.wellFormed = true ∧ k < i.operands.length ∧
        s.fetchWords = (encode i).take (k + 1)) ∧ ∀ i, s.fetchDecode ≠ .ok i)

/-- 60_exceptions.md section 1: an opcode word outside 0..21 raises `UnknownOpcode` with that whole word, whatever words follow or are missing. The frame of
fault entry is decision D6 (log 16). -/
def Obligations.UnknownOpcodeFaults : Prop :=
  ∀ s : State, s.run = .running → s.pc.toNat < 32768 → 22 ≤ (s.mem.read s.pc.toNat).toNat →
    TakesFault (.unknownOpcode (s.mem.read s.pc.toNat)) s

/-- 60_exceptions.md section 1: an operand word in 32776..65535, at any operand position of any instruction, raises `InvalidOperand`; the operand words before it
are good, those after it are anything (decision D4, log 14). For a destination word that kind of fault is decision D3 (log 13); the frame of fault entry is
decision D6 (log 16). -/
def Obligations.InvalidOperandWordFaults : Prop :=
  ∀ (s : State) (i : Instr) (k : Nat) (w : Word) (rest : List Word), s.run = .running → i.wellFormed = true →
    k < i.operands.length → 32776 ≤ w.toNat → s.fetchWords = (encode i).take (k + 1) ++ w :: rest →
    TakesFault .invalidOperand s

/-- 60_exceptions.md section 1: `RegisterIndexOutOfRange` is raised for a destination word in 8..32767, and by nothing else; never for a source (decision D3,
log 13, keeps 32776..65535 out of it). -/
def Obligations.RegisterIndexFaultOnlyByDestination : Prop :=
  (∀ (s : State) (i : Instr) (w : Word) (rest : List Word), s.run = .running → i.destOperand.isSome = true →
    8 ≤ w.toNat → w.toNat ≤ 32767 → s.fetchWords = BitVec.ofNat 16 i.opcode :: w :: rest →
    TakesFault .registerIndexOutOfRange s) ∧
  (∀ (s t : State) (faultPc : Word), s.run = .running → step s = .next t →
    t.run = .faulted .registerIndexOutOfRange faultPc →
    ∃ (i : Instr) (w : Word) (rest : List Word), i.destOperand.isSome = true ∧ 8 ≤ w.toNat ∧ w.toNat ≤ 32767 ∧
      s.fetchWords = BitVec.ofNat 16 i.opcode :: w :: rest)

/-- 60_exceptions.md section 1: MOD with a resolved divisor of 0 (a register's content modulo 32768, decision D2, log 12) raises `DivideByZero`, its operands
being good, and writes nothing; only MOD raises it. The frame of fault entry is decision D6 (log 16). -/
def Obligations.DivideByZeroOnlyByMod : Prop :=
  (∀ (a b c : Operand) (r : RegIdx) (s : State), dst a = some r → src c s = 0 →
    ∃ t faultPc, exec (.mod a b c) s = .next t ∧ t.run = .faulted .divideByZero faultPc ∧ FaultFrame s t) ∧
  (∀ (s t : State) (faultPc : Word), s.run = .running → step s = .next t → t.run = .faulted .divideByZero faultPc →
    ∃ a b c, s.fetchDecode = .ok (.mod a b c) ∧ src c s = 0)

/-- 60_exceptions.md section 1, fault entry: whatever the fault, `fault_pc` is the address of the faulting instruction's opcode word (decision D5, log 15) and
no register, memory byte, stack cell or stream is changed (decision D6, log 16). Nothing is said of `pc` (log 4). -/
def Obligations.FaultEntryIsPrecise : Prop :=
  ∀ (s t : State) (reason : FaultReason) (faultPc : Word), s.run = .running → step s = .next t →
    t.run = .faulted reason faultPc → faultPc = s.pc ∧ FaultFrame s t

/-- Every step of every state answers a next state: no instruction is refused, and every fault of the spec is a next state (log 5). -/
def Obligations.EveryStepAnswersNext : Prop := ∀ s : State, ∃ t, step s = .next t

/-- 10_state.md section 6: `Halted` and `Faulted` are final. That a step of a stopped machine is an answer with the same state is the model's choice (log 6). -/
def Obligations.StoppedMachineStays : Prop := ∀ s : State, s.run ≠ .running → step s = .next s

/-- 60_exceptions.md section 2: exactly three ways lead to `Halted`: HALT, and POP or RET on an empty stack (the recorded cause is decision D9, log 19). -/
def Obligations.HaltedInExactlyThreeWays : Prop :=
  ∀ (s t : State) (c : HaltCause), s.run = .running → step s = .next t →
    (t.run = .halted c ↔
      s.fetchDecode = .ok .halt ∧ c = .haltInstruction ∨
      (s.fetchDecode = .ok .ret ∨ ∃ a, s.fetchDecode = .ok (.pop a)) ∧ s.stack = [] ∧ c = .stackUnderflow)

/-! ## Instructions: result, `pc`, frame. Each says that `exec` answers a next state. -/

/-- 41_data_movement_and_stack.md, SET. -/
def Obligations.SetWritesSourceValue : Prop :=
  ∀ (a b : Operand) (r : RegIdx) (s : State), dst a = some r →
    ∃ t, exec (.set a b) s = .next t ∧ (t.reg r).toNat = (src b s).toNat ∧ t.pc = s.pc + 3 ∧ RegisterFrame r s t

/-- 41_data_movement_and_stack.md, PUSH: it cannot fail. -/
def Obligations.PushAddsTopCell : Prop :=
  ∀ (a : Operand) (s : State), ∃ t, exec (.push a) s = .next t ∧
    t.stack = BitVec.ofNat 16 (src a s).toNat :: s.stack ∧ t.sp = s.sp + 1 ∧ t.pc = s.pc + 2 ∧
    KeepsRegs s t ∧ KeepsMem s t ∧ KeepsStreams s t ∧ KeepsRun s t

/-- 41_data_movement_and_stack.md, POP: the top word, unreduced (decision D18, log 23), to the register; on an empty stack a halt with `pc` past the
instruction (decision D9, log 19). -/
def Obligations.PopMovesTopOrHalts : Prop :=
  ∀ (a : Operand) (r : RegIdx) (s : State), dst a = some r →
    (∀ v rest, s.stack = v :: rest → ∃ t, exec (.pop a) s = .next t ∧ t.reg r = v ∧ t.stack = rest ∧ t.pc = s.pc + 2 ∧
      KeepsOtherRegs r s t ∧ KeepsMem s t ∧ KeepsStreams s t ∧ KeepsRun s t) ∧
    (s.stack = [] → ∃ t, exec (.pop a) s = .next t ∧ t.pc = s.pc + 2 ∧ HaltFrame .stackUnderflow s t)

/-- 42_compare.md, EQ and GT: 1 or 0, compared unsigned. -/
def Obligations.ComparisonsWriteOneOrZero : Prop :=
  ∀ (a b c : Operand) (r : RegIdx) (s : State), dst a = some r →
    (∃ t, exec (.eq a b c) s = .next t ∧ (t.reg r).toNat = (if (src b s).toNat = (src c s).toNat then 1 else 0) ∧
      t.pc = s.pc + 4 ∧ RegisterFrame r s t) ∧
    (∃ t, exec (.gt a b c) s = .next t ∧ (t.reg r).toNat = (if (src b s).toNat > (src c s).toNat then 1 else 0) ∧
      t.pc = s.pc + 4 ∧ RegisterFrame r s t)

/-- 43_control_transfer.md, JMP. -/
def Obligations.JmpSetsPc : Prop :=
  ∀ (a : Operand) (s : State), ∃ t, exec (.jmp a) s = .next t ∧ t.pc.toNat = (src a s).toNat ∧ PcFrame s t

/-- 43_control_transfer.md, JNZ and JZ: with the same operands exactly one of them jumps. -/
def Obligations.ConditionalJumpsTestZero : Prop :=
  ∀ (a b : Operand) (s : State), ∃ t u, exec (.jnz a b) s = .next t ∧ exec (.jz a b) s = .next u ∧
    PcFrame s t ∧ PcFrame s u ∧
    ((src a s).toNat ≠ 0 → t.pc.toNat = (src b s).toNat ∧ u.pc = s.pc + 3) ∧
    ((src a s).toNat = 0 → t.pc = s.pc + 3 ∧ u.pc.toNat = (src b s).toNat)

/-- 43_control_transfer.md, CALL: the return address is pushed unreduced. -/
def Obligations.CallPushesReturnAddress : Prop :=
  ∀ (a : Operand) (s : State), ∃ t, exec (.call a) s = .next t ∧ t.stack = (s.pc + 2) :: s.stack ∧
    t.pc.toNat = (src a s).toNat ∧ KeepsRegs s t ∧ KeepsMem s t ∧ KeepsStreams s t ∧ KeepsRun s t

/-- 43_control_transfer.md, RET: the popped word goes to `pc` unreduced and unchecked (decision D19, log 24); on an empty stack a halt (decision D9, log 19). -/
def Obligations.RetPopsPcOrHalts : Prop :=
  ∀ s : State,
    (∀ v rest, s.stack = v :: rest → ∃ t, exec .ret s = .next t ∧ t.pc = v ∧ t.stack = rest ∧
      KeepsRegs s t ∧ KeepsMem s t ∧ KeepsStreams s t ∧ KeepsRun s t) ∧
    (s.stack = [] → ∃ t, exec .ret s = .next t ∧ t.pc = s.pc + 1 ∧ HaltFrame .stackUnderflow s t)

/-- 44_arithmetic_logic.md, ADD. -/
def Obligations.AddWritesSumModulo32768 : Prop :=
  ∀ (a b c : Operand) (r : RegIdx) (s : State), dst a = some r →
    ∃ t, exec (.add a b c) s = .next t ∧ (t.reg r).toNat = ((src b s).toNat + (src c s).toNat) % 32768 ∧
      t.pc = s.pc + 4 ∧ RegisterFrame r s t

/-- 44_arithmetic_logic.md, MULT: the exact product, then the reduction. -/
def Obligations.MultWritesProductModulo32768 : Prop :=
  ∀ (a b c : Operand) (r : RegIdx) (s : State), dst a = some r →
    ∃ t, exec (.mult a b c) s = .next t ∧ (t.reg r).toNat = ((src b s).toNat * (src c s).toNat) % 32768 ∧
      t.pc = s.pc + 4 ∧ RegisterFrame r s t

/-- 44_arithmetic_logic.md, MOD with a divisor that is not 0 (for 0 see DivideByZeroOnlyByMod). -/
def Obligations.ModWritesRemainder : Prop :=
  ∀ (a b c : Operand) (r : RegIdx) (s : State), dst a = some r → src c s ≠ 0 →
    ∃ t, exec (.mod a b c) s = .next t ∧ (t.reg r).toNat = (src b s).toNat % (src c s).toNat ∧
      (t.reg r).toNat < (src c s).toNat ∧ t.pc = s.pc + 4 ∧ RegisterFrame r s t

/-- 44_arithmetic_logic.md, AND and OR: bit by bit over bits 14 to 0, bit 15 of the destination 0. -/
def Obligations.AndOrWriteBitwise : Prop :=
  ∀ (a b c : Operand) (r : RegIdx) (s : State), dst a = some r →
    (∃ t, exec (.and a b c) s = .next t ∧ (t.reg r).getLsbD 15 = false ∧
      (∀ n, n < 15 → (t.reg r).getLsbD n = ((src b s).getLsbD n && (src c s).getLsbD n)) ∧
      t.pc = s.pc + 4 ∧ RegisterFrame r s t) ∧
    (∃ t, exec (.or a b c) s = .next t ∧ (t.reg r).getLsbD 15 = false ∧
      (∀ n, n < 15 → (t.reg r).getLsbD n = ((src b s).getLsbD n || (src c s).getLsbD n)) ∧
      t.pc = s.pc + 4 ∧ RegisterFrame r s t)

/-- 44_arithmetic_logic.md, NOT: the 15-bit complement, which is `32767 - vb`. -/
def Obligations.NotWritesComplement : Prop :=
  ∀ (a b : Operand) (r : RegIdx) (s : State), dst a = some r →
    ∃ t, exec (.not a b) s = .next t ∧ (t.reg r).toNat = 32767 - (src b s).toNat ∧ t.pc = s.pc + 3 ∧ RegisterFrame r s t

/-- 45_memory_access.md, RMEM: the whole word, unreduced (decision D18, log 23). -/
def Obligations.RmemLoadsWholeWord : Prop :=
  ∀ (a b : Operand) (r : RegIdx) (s : State), dst a = some r →
    ∃ t, exec (.rmem a b) s = .next t ∧ t.reg r = s.mem.read (src b s).toNat ∧ t.pc = s.pc + 3 ∧ RegisterFrame r s t

/-- 45_memory_access.md, WMEM: the cell at `va` becomes `vb`, every byte outside that word is as before. The premise is the part of the invariant about memory
(StepKeepsInvariant, BootHasInvariant). -/
def Obligations.WmemStoresValue : Prop :=
  ∀ (a b : Operand) (s : State), s.mem.wf →
    ∃ t, exec (.wmem a b) s = .next t ∧ (t.mem.read (src a s).toNat).toNat = (src b s).toNat ∧
      KeepsMemOutside (src a s).toNat s t ∧ t.mem.wf ∧ t.pc = s.pc + 3 ∧
      KeepsRegs s t ∧ t.stack = s.stack ∧ KeepsStreams s t ∧ KeepsRun s t

/-- 46_io_and_system.md, HALT (the recorded cause is decision D9, log 19). -/
def Obligations.HaltStopsTheRun : Prop :=
  ∀ s : State, ∃ t, exec .halt s = .next t ∧ t.pc = s.pc + 1 ∧ HaltFrame .haltInstruction s t

/-- 46_io_and_system.md, OUT: one byte, the low 8 bits of the value, after those emitted before (decision D11, log 22). -/
def Obligations.OutEmitsLowByte : Prop :=
  ∀ (a : Operand) (s : State), ∃ t b, exec (.out a) s = .next t ∧ t.output = s.output ++ [b] ∧
    b.toNat = (src a s).toNat % 256 ∧ t.pc = s.pc + 2 ∧
    KeepsRegs s t ∧ KeepsMem s t ∧ t.stack = s.stack ∧ t.input = s.input ∧ KeepsRun s t

/-- 46_io_and_system.md, IN: the first input byte, zero-extended, to the register; with no byte available the state stays exactly as it is (decision D10, log 20;
that the wait is an answer with the same state is the model's choice, log 7). -/
def Obligations.InTakesOneByteOrWaits : Prop :=
  ∀ (a : Operand) (r : RegIdx) (s : State), dst a = some r →
    (∀ b rest, s.input = b :: rest → ∃ t, exec (.inp a) s = .next t ∧ (t.reg r).toNat = b.toNat ∧ t.input = rest ∧
      t.pc = s.pc + 2 ∧ KeepsOtherRegs r s t ∧ KeepsMem s t ∧ t.stack = s.stack ∧ t.output = s.output ∧ KeepsRun s t) ∧
    (s.input = [] → exec (.inp a) s = .next s)

/-- 46_io_and_system.md, NOOP. -/
def Obligations.NoopOnlyAdvances : Prop :=
  ∀ s : State, ∃ t, exec .noop s = .next t ∧ t.pc = s.pc + 1 ∧ PcFrame s t

/-- 60_exceptions.md section 1: each of the twelve instructions with a destination raises `RegisterIndexOutOfRange` where the destination is a literal above 7,
whatever the stack, the divisor and the input are (decision D4, log 14; `fault_pc` decision D5, log 15). -/
def Obligations.DestinationOutOfRangeTraps : Prop :=
  ∀ (i : Instr) (v : Val) (s : State), i.destOperand = some (.lit v) → 8 ≤ v.toNat →
    ∃ t, exec i s = .next t ∧ t.run = .faulted .registerIndexOutOfRange s.pc ∧ FaultFrame s t

/-! ## The whole machine -/

/-- 10_state.md section 5: only WMEM changes memory; a fetch does not (90_conflicts.md C11). -/
def Obligations.OnlyWmemChangesMemory : Prop :=
  ∀ s t : State, step s = .next t → (∀ a b, s.fetchDecode ≠ .ok (.wmem a b)) → t.mem = s.mem

/-- 10_state.md section 1: a step changes no register but the destination of the instruction it executes, so the ten instructions without one change none. -/
def Obligations.OnlyDestinationRegisterChanges : Prop :=
  ∀ (s t : State) (q : RegIdx), step s = .next t → t.reg q ≠ s.reg q →
    ∃ i a, s.fetchDecode = .ok i ∧ i.destOperand = some a ∧ dst a = some q

/-- 10_state.md section 3: PUSH and CALL push one word, POP and RET take the top one, nothing else touches the stack and no other cell is reached. -/
def Obligations.StackChangesOnlyAtTop : Prop :=
  ∀ s t : State, step s = .next t → t.stack ≠ s.stack →
    ((∃ a, s.fetchDecode = .ok (.push a) ∨ s.fetchDecode = .ok (.call a)) ∧ ∃ v, t.stack = v :: s.stack) ∨
    ((s.fetchDecode = .ok .ret ∨ ∃ a, s.fetchDecode = .ok (.pop a)) ∧ ∃ v, s.stack = v :: t.stack)

/-- R23: OUT appends one byte to `output` and nothing else touches it; IN removes the first byte of `input` and nothing else touches it. -/
def Obligations.StreamsChangeOnlyByOutAndIn : Prop :=
  ∀ s t : State, s.run = .running → step s = .next t →
    (∀ a, s.fetchDecode = .ok (.out a) → ∃ b, t.output = s.output ++ [b]) ∧
    ((∀ a, s.fetchDecode ≠ .ok (.out a)) → t.output = s.output) ∧
    (∀ a b rest, s.fetchDecode = .ok (.inp a) → s.input = b :: rest → t.input = rest) ∧
    ((∀ a, s.fetchDecode ≠ .ok (.inp a)) → t.input = s.input)

/-- 20_memory.md section 4: a word with bit 15 set is never stored by a program; where a cell holds one after a step, it held it before. -/
def Obligations.StoredWordsAreVals : Prop :=
  ∀ (s t : State) (a : Nat), s.mem.wf → step s = .next t → 32768 ≤ (t.mem.read a).toNat → t.mem.read a = s.mem.read a

/-- 10_state.md section 1: only RMEM and POP bring a word with bit 15 set into a register (decision D18, log 23). -/
def Obligations.HighWordsEnterRegistersByRmemPop : Prop :=
  ∀ (s t : State) (q : RegIdx), step s = .next t → t.reg q ≠ s.reg q → 32768 ≤ (t.reg q).toNat →
    (∃ a b, s.fetchDecode = .ok (.rmem a b)) ∨ ∃ a, s.fetchDecode = .ok (.pop a)

/-- The canonical form of memory (log 1): two memories in it that hold the same 32768 words are the same data. -/
def Obligations.CanonicalMemoriesAreEqual : Prop :=
  ∀ m m' : Memory, m.wf → m'.wf → (∀ a, a < 32768 → m.read a = m'.read a) → m = m'

/-- 20_memory.md section 1: `MemWrite` sets the one cell and changes nothing else; `MemRead` gives the cell's word; the address is in 0..32767 by its type. -/
def Obligations.MemWriteSetsOneCell : Prop :=
  ∀ (s : State) (a : Val) (v : Word), s.mem.wf →
    (s.memWrite a v).memRead a = v ∧ (∀ a', a' ≠ a → (s.memWrite a v).memRead a' = s.memRead a') ∧
    (s.memWrite a v).mem.wf ∧ { s.memWrite a v with mem := s.mem } = s

/-- 10_state.md R16 as an invariant of the step (log 1, log 9): canonical memory, stack cells at most 32768, `pc` at most 32768 outside `Faulted`. From every
state that has it, reached or not. -/
def Obligations.StepKeepsInvariant : Prop := ∀ s t : State, s.Inv → step s = .next t → t.Inv

/-- The state after reset has the invariant. -/
def Obligations.ResetHasInvariant : Prop := State.reset.Inv

/-- Every loaded image gives a state with the invariant. -/
def Obligations.BootHasInvariant : Prop := ∀ (image : List Word) (s : State), boot image = some s → s.Inv

/-- 10_state.md section 3: in every state reached from reset, whatever the image and the input, every stack cell is at most 32768, and so is `pc` while the
machine has not faulted. -/
def Obligations.ReachableStatesAreBounded : Prop :=
  ∀ s : State, Reachable s → (∀ v ∈ s.stack, v.toNat ≤ 32768) ∧ (s.Safe → s.pc.toNat ≤ 32768)

/-- 40_step_and_operands.md section 3 and decisions D2 and D18 (log 12, log 23), noninterference: bit 15 of a register is never visible to a computation. Two
states that differ only there step to states that differ at most there. -/
def Obligations.RegisterBit15IsInvisible : Prop :=
  ∀ s t : State, AgreeBelowBit15 s t → ∃ s' t', step s = .next s' ∧ step t = .next t' ∧ AgreeBelowBit15 s' t'

/-- 43_control_transfer.md, the round-trip law: a CALL whose target holds a RET comes back to the word after the CALL, with the stack as it was. -/
def Obligations.CallThenRetReturns : Prop :=
  ∀ (s t : State) (a : Operand), s.run = .running → s.fetchDecode = .ok (.call a) → step s = .next t →
    t.fetchDecode = .ok .ret →
    ∃ u, step t = .next u ∧ u.pc.toNat = s.pc.toNat + 2 ∧ u.stack = s.stack ∧ KeepsRegs s u ∧ KeepsMem s u ∧
      KeepsStreams s u ∧ KeepsRun s u

/-- 46_io_and_system.md section 2: an IN with no byte available waits with all of its state unchanged, and completes once the environment has supplied bytes
(decision D10, log 20; log 7). -/
def Obligations.WaitingInEndsWithInput : Prop :=
  ∀ (s : State) (a : Operand) (r : RegIdx) (b : Byte) (more : List Byte), s.run = .running →
    s.fetchDecode = .ok (.inp a) → dst a = some r → s.input = [] →
    step s = .next s ∧
    ∃ t, step (s.supplyInput (b :: more)) = .next t ∧ (t.reg r).toNat = b.toNat ∧ t.input = more ∧ t.pc = s.pc + 2 ∧
      t.output = s.output ∧ KeepsOtherRegs r s t ∧ KeepsMem s t ∧ t.stack = s.stack ∧ KeepsRun s t

/-- R163: the loader's words are the byte stream's pairs, low byte first. -/
def Obligations.ImageOfBytesPairsLittleEndian : Prop :=
  ∀ bytes : List Byte, bytes.length % 2 = 0 →
    ∃ ws, imageOfBytes bytes = some ws ∧ bytes.length = 2 * ws.length ∧
      ∀ n w, ws[n]? = some w → ∃ low high, bytes[2 * n]? = some low ∧ bytes[2 * n + 1]? = some high ∧
        w.toNat = low.toNat + 256 * high.toNat

/-- R160 and R162: reset zeroes registers, stack and memory and starts `Running` at address 0; then the image is placed from address 0, each word unchanged, and
the cells beyond it keep their 0; the first step fetches at address 0. -/
def Obligations.BootPlacesImage : Prop :=
  ∀ image : List Word, image.length ≤ 32768 →
    ∃ s, boot image = some s ∧ (∀ q, s.reg q = 0) ∧ s.stack = [] ∧ s.pc = 0 ∧ s.run = .running ∧
      (∀ n w, image[n]? = some w → s.mem.read n = w) ∧ (∀ n, image.length ≤ n → s.mem.read n = 0) ∧
      s.fetchWords = s.mem.readWords 4 0

/-- 70_reset_and_hazards.md section 2: the loader refuses an image longer than memory (decision D14, log 21). -/
def Obligations.OversizedImageRefused : Prop := ∀ image : List Word, 32768 < image.length → boot image = none

/-- 10_state.md section 9: the values after reset. `input` is empty by the model's choice (log 8) and is not part of the statement. -/
def Obligations.ResetZeroesEverything : Prop :=
  (∀ q, State.reset.reg q = 0) ∧ State.reset.pc = 0 ∧ State.reset.stack = [] ∧ State.reset.sp = 0 ∧
  (∀ a, State.reset.mem.read a = 0) ∧ State.reset.run = .running ∧ State.reset.output = []
end

