-- ==== Sys2Proof/Laws/Decode.lean ====
section
/-! SUPPORT. The decoder's parts, one spec lemma each: an operand word and its class, taking one operand word, and how many words each format takes. -/

namespace Sys2Proof

/-- A literal's word is its own number (R53). -/
theorem word_lit_toNat (v : Val) : (Operand.lit v).word.toNat = v.toNat := by
  have h := v.isLt
  simp only [Operand.word, BitVec.toNat_ofNat]
  omega

/-- A register reference's word is 32768 and the register's number (R53). -/
theorem word_reg_toNat (r : RegIdx) : (Operand.reg r).word.toNat = 32768 + r.val := by
  have h := r.isLt
  simp only [Operand.word, BitVec.toNat_ofNat, Config.regRefBase]
  omega

/-- The word of an operand is classified as that operand (R53). -/
theorem classify_word (o : Operand) : classify o.word = some o := by
  cases o with
  | lit v =>
    have h := v.isLt
    simp only [classify, word_lit_toNat, Config.regRefBase]
    simp [show v.toNat < 32768 by omega]
  | reg r =>
    have h := r.isLt
    simp only [classify, word_reg_toNat, Config.regRefBase, Config.numRegs]
    simp [h]

/-- A word classified as an operand is that operand's word: each class is read and written the same (R53). -/
theorem word_of_classify {w : Word} {o : Operand} (h : classify w = some o) : o.word = w := by
  have hw := w.isLt
  simp only [classify, Config.regRefBase, Config.numRegs] at h
  apply BitVec.eq_of_toNat_eq
  split at h
  · obtain rfl := Option.some.inj h
    rw [word_lit_toNat, BitVec.toNat_ofNat]
    omega
  · split at h
    · obtain rfl := Option.some.inj h
      rw [word_reg_toNat]
      simp only
      omega
    · simp at h

@[simp] theorem takeSrc_nil : takeSrc [] = .error .memoryOutOfBounds := rfl

@[simp] theorem takeDst_nil : takeDst [] = .error .memoryOutOfBounds := rfl

@[simp] theorem takeSrc_word (o : Operand) (ws : List Word) : takeSrc (o.word :: ws) = .ok (o, ws) := by
  simp [takeSrc, classify_word]

theorem takeDst_word {o : Operand} (h : o.isDest = true) (ws : List Word) : takeDst (o.word :: ws) = .ok (o, ws) := by
  simp [takeDst, classify_word, h]

/-- What `takeSrc` accepts: the operand's word, and nothing else is taken. -/
theorem takeSrc_ok {ws rest : List Word} {o : Operand} (h : takeSrc ws = .ok (o, rest)) : ws = o.word :: rest := by
  cases ws with
  | nil => simp [takeSrc] at h
  | cons w ws =>
    simp only [takeSrc] at h
    cases hc : classify w with
    | none => simp [hc] at h
    | some a =>
      simp only [hc, Except.ok.injEq, Prod.mk.injEq] at h
      obtain ⟨rfl, rfl⟩ := h
      rw [word_of_classify hc]

/-- What `takeDst` accepts: the word of an operand that names a register, and nothing else is taken. -/
theorem takeDst_ok {ws rest : List Word} {o : Operand} (h : takeDst ws = .ok (o, rest)) :
    o.isDest = true ∧ ws = o.word :: rest := by
  cases ws with
  | nil => simp [takeDst] at h
  | cons w ws =>
    simp only [takeDst] at h
    cases hc : classify w with
    | none => simp [hc] at h
    | some a =>
      simp only [hc] at h
      split at h
      · rename_i hd
        simp only [Except.ok.injEq, Prod.mk.injEq] at h
        obtain ⟨rfl, rfl⟩ := h
        exact ⟨hd, by rw [word_of_classify hc]⟩
      · simp at h

/-! ### What taking an operand word rejects with -/

theorem takeSrc_error {ws : List Word} {e : FaultReason} (h : takeSrc ws = .error e) :
    (ws = [] ∧ e = .memoryOutOfBounds) ∨ ∃ w rest, ws = w :: rest ∧ classify w = none ∧ e = .invalidOperand := by
  cases ws with
  | nil => simp only [takeSrc, Except.error.injEq] at h; exact .inl ⟨rfl, h.symm⟩
  | cons w ws =>
    simp only [takeSrc] at h
    cases hc : classify w with
    | none => simp only [hc, Except.error.injEq] at h; exact .inr ⟨w, ws, rfl, hc, h.symm⟩
    | some a => simp [hc] at h

theorem takeDst_error {ws : List Word} {e : FaultReason} (h : takeDst ws = .error e) :
    (ws = [] ∧ e = .memoryOutOfBounds) ∨
      (∃ w rest, ws = w :: rest ∧ classify w = none ∧ e = .invalidOperand) ∨
      ∃ w rest a, ws = w :: rest ∧ classify w = some a ∧ a.isDest = false ∧ e = .registerIndexOutOfRange := by
  cases ws with
  | nil => simp only [takeDst, Except.error.injEq] at h; exact .inl ⟨rfl, h.symm⟩
  | cons w ws =>
    simp only [takeDst] at h
    cases hc : classify w with
    | none => simp only [hc, Except.error.injEq] at h; exact .inr (.inl ⟨w, ws, rfl, hc, h.symm⟩)
    | some a =>
      simp only [hc] at h
      split at h
      · simp at h
      · rename_i hd
        simp only [Except.error.injEq] at h
        exact .inr (.inr ⟨w, ws, a, rfl, hc, by simpa using hd, h.symm⟩)

/-- An operand word is rejected by an operand's fault only. -/
theorem takeSrc_error_ne {ws : List Word} {e : FaultReason} (h : takeSrc ws = .error e) :
    e = .memoryOutOfBounds ∨ e = .invalidOperand := by
  rcases takeSrc_error h with ⟨_, rfl⟩ | ⟨_, _, _, _, rfl⟩
  · exact .inl rfl
  · exact .inr rfl

theorem takeDst_error_ne {ws : List Word} {e : FaultReason} (h : takeDst ws = .error e) :
    e = .memoryOutOfBounds ∨ e = .invalidOperand ∨ e = .registerIndexOutOfRange := by
  rcases takeDst_error h with ⟨_, rfl⟩ | ⟨_, _, _, _, rfl⟩ | ⟨_, _, _, _, _, _, rfl⟩
  · exact .inl rfl
  · exact .inr (.inl rfl)
  · exact .inr (.inr rfl)

theorem decodeF1v_error {mk : Operand → Instr} {ws : List Word} {e : FaultReason} (h : decodeF1v mk ws = .error e) :
    takeSrc ws = .error e := by
  simp only [decodeF1v] at h
  split at h
  · rename_i e' he
    rw [he, Except.error.inj h]
  · simp at h

theorem decodeF1d_error {mk : Operand → Instr} {ws : List Word} {e : FaultReason} (h : decodeF1d mk ws = .error e) :
    takeDst ws = .error e := by
  simp only [decodeF1d] at h
  split at h
  · rename_i e' he
    rw [he, Except.error.inj h]
  · simp at h

theorem decodeF2dv_error {mk : Operand → Operand → Instr} {ws : List Word} {e : FaultReason}
    (h : decodeF2dv mk ws = .error e) :
    takeDst ws = .error e ∨ ∃ a rest, takeDst ws = .ok (a, rest) ∧ takeSrc rest = .error e := by
  simp only [decodeF2dv] at h
  split at h
  · rename_i e' he
    exact .inl (by rw [he, Except.error.inj h])
  · rename_i a rest ha
    exact .inr ⟨a, rest, ha, decodeF1v_error h⟩

theorem decodeF2vv_error {mk : Operand → Operand → Instr} {ws : List Word} {e : FaultReason}
    (h : decodeF2vv mk ws = .error e) :
    takeSrc ws = .error e ∨ ∃ a rest, takeSrc ws = .ok (a, rest) ∧ takeSrc rest = .error e := by
  simp only [decodeF2vv] at h
  split at h
  · rename_i e' he
    exact .inl (by rw [he, Except.error.inj h])
  · rename_i a rest ha
    exact .inr ⟨a, rest, ha, decodeF1v_error h⟩

theorem decodeF3dvv_error {mk : Operand → Operand → Operand → Instr} {ws : List Word} {e : FaultReason}
    (h : decodeF3dvv mk ws = .error e) :
    takeDst ws = .error e ∨ (∃ a rest, takeDst ws = .ok (a, rest) ∧ takeSrc rest = .error e) ∨
      ∃ a b rest rest', takeDst ws = .ok (a, rest) ∧ takeSrc rest = .ok (b, rest') ∧ takeSrc rest' = .error e := by
  simp only [decodeF3dvv] at h
  split at h
  · rename_i e' he
    exact .inl (by rw [he, Except.error.inj h])
  · rename_i a rest ha
    rcases decodeF2vv_error h with h | ⟨b, rest', hb, h⟩
    · exact .inr (.inl ⟨a, rest, ha, h⟩)
    · exact .inr (.inr ⟨a, b, rest, rest', ha, hb, h⟩)

/-! ### The formats: what each accepts -/

theorem decodeF0_ok {i j : Instr} {ws rest : List Word} (h : decodeF0 i ws = .ok (j, rest)) : j = i ∧ ws = rest := by
  simp only [decodeF0, Except.ok.injEq, Prod.mk.injEq] at h
  exact ⟨h.1.symm, h.2⟩

theorem decodeF1v_ok {mk : Operand → Instr} {j : Instr} {ws rest : List Word} (h : decodeF1v mk ws = .ok (j, rest)) :
    ∃ a, j = mk a ∧ ws = a.word :: rest := by
  simp only [decodeF1v] at h
  split at h
  · simp at h
  · rename_i a ws' ha
    simp only [Except.ok.injEq, Prod.mk.injEq] at h
    exact ⟨a, h.1.symm, h.2 ▸ takeSrc_ok ha⟩

theorem decodeF1d_ok {mk : Operand → Instr} {j : Instr} {ws rest : List Word} (h : decodeF1d mk ws = .ok (j, rest)) :
    ∃ a, a.isDest = true ∧ j = mk a ∧ ws = a.word :: rest := by
  simp only [decodeF1d] at h
  split at h
  · simp at h
  · rename_i a ws' ha
    simp only [Except.ok.injEq, Prod.mk.injEq] at h
    exact ⟨a, (takeDst_ok ha).1, h.1.symm, h.2 ▸ (takeDst_ok ha).2⟩

theorem decodeF2dv_ok {mk : Operand → Operand → Instr} {j : Instr} {ws rest : List Word}
    (h : decodeF2dv mk ws = .ok (j, rest)) :
    ∃ a b, a.isDest = true ∧ j = mk a b ∧ ws = a.word :: b.word :: rest := by
  simp only [decodeF2dv] at h
  split at h
  · simp at h
  · rename_i a ws' ha
    obtain ⟨b, rfl, rfl⟩ := decodeF1v_ok h
    exact ⟨a, b, (takeDst_ok ha).1, rfl, (takeDst_ok ha).2⟩

theorem decodeF2vv_ok {mk : Operand → Operand → Instr} {j : Instr} {ws rest : List Word}
    (h : decodeF2vv mk ws = .ok (j, rest)) : ∃ a b, j = mk a b ∧ ws = a.word :: b.word :: rest := by
  simp only [decodeF2vv] at h
  split at h
  · simp at h
  · rename_i a ws' ha
    obtain ⟨b, rfl, rfl⟩ := decodeF1v_ok h
    exact ⟨a, b, rfl, takeSrc_ok ha⟩

theorem decodeF3dvv_ok {mk : Operand → Operand → Operand → Instr} {j : Instr} {ws rest : List Word}
    (h : decodeF3dvv mk ws = .ok (j, rest)) :
    ∃ a b c, a.isDest = true ∧ j = mk a b c ∧ ws = a.word :: b.word :: c.word :: rest := by
  simp only [decodeF3dvv] at h
  split at h
  · simp at h
  · rename_i a ws' ha
    obtain ⟨b, c, rfl, rfl⟩ := decodeF2vv_ok h
    exact ⟨a, b, c, (takeDst_ok ha).1, rfl, (takeDst_ok ha).2⟩

/-! ### The formats: what each answers on the words it accepts -/

theorem decodeF1v_words (mk : Operand → Instr) (a : Operand) (ws : List Word) :
    decodeF1v mk (a.word :: ws) = .ok (mk a, ws) := by simp [decodeF1v]

theorem decodeF1d_words (mk : Operand → Instr) {a : Operand} (h : a.isDest = true) (ws : List Word) :
    decodeF1d mk (a.word :: ws) = .ok (mk a, ws) := by simp [decodeF1d, takeDst_word h]

theorem decodeF2dv_words (mk : Operand → Operand → Instr) {a : Operand} (h : a.isDest = true) (b : Operand)
    (ws : List Word) : decodeF2dv mk (a.word :: b.word :: ws) = .ok (mk a b, ws) := by
  simp [decodeF2dv, takeDst_word h, decodeF1v_words]

theorem decodeF2vv_words (mk : Operand → Operand → Instr) (a b : Operand) (ws : List Word) :
    decodeF2vv mk (a.word :: b.word :: ws) = .ok (mk a b, ws) := by simp [decodeF2vv, decodeF1v_words]

theorem decodeF3dvv_words (mk : Operand → Operand → Operand → Instr) {a : Operand} (h : a.isDest = true)
    (b c : Operand) (ws : List Word) :
    decodeF3dvv mk (a.word :: b.word :: c.word :: ws) = .ok (mk a b c, ws) := by
  simp [decodeF3dvv, takeDst_word h, decodeF2vv_words]

end Sys2Proof
end

