-- ==== Sys2Proof/Laws/Memory.lean ====
section
/-! SUPPORT. The laws of memory: a read after a write, what a write leaves alone, and the canonical form kept by every operation. -/

namespace Sys2Proof.Machine

/-! ### Byte cells -/

@[simp] theorem Memory.byteAt_nil (k : Nat) : Memory.byteAt [] k = unlistedByte := rfl

theorem Memory.byteAt_cons (k' : Nat) (v : Byte) (m : Memory) (k : Nat) :
    Memory.byteAt ((k', v) :: m) k = if k' = k then v else Memory.byteAt m k := rfl

/-- A cell below every listed one is not listed. -/
theorem Memory.byteAt_of_lt {m : Memory} {k : Nat} (h : ∀ p ∈ m, k < p.1) : m.byteAt k = unlistedByte := by
  induction m with
  | nil => rfl
  | cons p m ih =>
    have hp := h p (by simp)
    simp only [Memory.byteAt, show ¬ p.1 = k by omega, if_false]
    exact ih fun q hq => h q (by simp [hq])

/-- `consCell` reads as `v` at `k`, if `k` is not listed behind it, and as the rest elsewhere. -/
theorem Memory.byteAt_consCell {m : Memory} {k : Nat} (h : m.byteAt k = unlistedByte) (v : Byte) (j : Nat) :
    (Memory.consCell k v m).byteAt j = if j = k then v else m.byteAt j := by
  unfold Memory.consCell
  by_cases hv : v = unlistedByte <;> by_cases hj : j = k <;> simp_all [Memory.byteAt, eq_comm]

/-- A byte read after a byte write. -/
theorem Memory.byteAt_setByte {m : Memory} (hm : m.Pairwise (fun p q => p.1 < q.1)) (k : Nat) (v : Byte) (j : Nat) :
    (m.setByte k v).byteAt j = if j = k then v else m.byteAt j := by
  induction m with
  | nil => exact Memory.byteAt_consCell rfl v j
  | cons p m ih =>
    obtain ⟨k', v'⟩ := p
    obtain ⟨hp, hm'⟩ := List.pairwise_cons.1 hm
    simp only [Memory.setByte]
    split
    · rename_i hlt
      refine Memory.byteAt_consCell (Memory.byteAt_of_lt fun q hq => ?_) v j
      rcases List.mem_cons.1 hq with rfl | hq
      · exact hlt
      · exact Nat.lt_trans hlt (hp q hq)
    · split
      · rename_i _ heq
        subst heq
        rw [Memory.byteAt_consCell (Memory.byteAt_of_lt hp) v j, Memory.byteAt_cons]
        by_cases hj : j = k
        · simp [hj]
        · simp [hj, show ¬ k = j from fun e => hj e.symm]
      · rename_i hne
        rw [Memory.byteAt_cons, Memory.byteAt_cons, ih hm']
        by_cases hj : j = k
        · simp [hj, show ¬ k' = k from fun e => hne e.symm]
        · simp [hj]

/-! ### The canonical form -/

theorem Memory.wf_nil : Memory.wf [] := by simp [Memory.wf]

theorem Memory.wf_tail {p : Host.Cell} {m : Memory} (h : Memory.wf (p :: m)) : m.wf :=
  ⟨(List.pairwise_cons.1 h.1).2, fun q hq => h.2 q (by simp [hq])⟩

theorem Memory.wf_consCell {m : Memory} {k : Nat} {v : Byte} (hm : m.wf) (hlt : ∀ p ∈ m, k < p.1)
    (hk : k < 2 * Config.memWords) : (Memory.consCell k v m).wf := by
  unfold Memory.consCell
  split
  · exact hm
  · rename_i hv
    refine ⟨List.pairwise_cons.2 ⟨hlt, hm.1⟩, fun q hq => ?_⟩
    rcases List.mem_cons.1 hq with rfl | hq
    · exact ⟨hv, hk⟩
    · exact hm.2 q hq

theorem Memory.mem_consCell {m : Memory} {k : Nat} {v : Byte} {q : Host.Cell} (hq : q ∈ Memory.consCell k v m) :
    q.1 = k ∨ q ∈ m := by
  unfold Memory.consCell at hq
  split at hq
  · exact .inr hq
  · rcases List.mem_cons.1 hq with rfl | hq
    · exact .inl rfl
    · exact .inr hq

/-- A byte write lists no cell but those listed before and its own. -/
theorem Memory.mem_setByte {m : Memory} {k : Nat} {v : Byte} {q : Host.Cell} (hq : q ∈ m.setByte k v) :
    q.1 = k ∨ q ∈ m := by
  induction m with
  | nil => exact Memory.mem_consCell hq
  | cons p m ih =>
    obtain ⟨k', v'⟩ := p
    simp only [Memory.setByte] at hq
    split at hq
    · exact Memory.mem_consCell hq
    · split at hq
      · rcases Memory.mem_consCell hq with h | h
        · exact .inl h
        · exact .inr (by simp [h])
      · rcases List.mem_cons.1 hq with rfl | hq
        · exact .inr (by simp)
        · rcases ih hq with h | h
          · exact .inl h
          · exact .inr (by simp [h])

theorem Memory.wf_setByte {m : Memory} (hm : m.wf) {k : Nat} (hk : k < 2 * Config.memWords) (v : Byte) :
    (m.setByte k v).wf := by
  induction m with
  | nil => exact Memory.wf_consCell hm (by simp) hk
  | cons p m ih =>
    obtain ⟨k', v'⟩ := p
    obtain ⟨hp, hm'⟩ := List.pairwise_cons.1 hm.1
    simp only [Memory.setByte]
    split
    · rename_i hlt
      refine Memory.wf_consCell hm (fun q hq => ?_) hk
      rcases List.mem_cons.1 hq with rfl | hq
      · exact hlt
      · exact Nat.lt_trans hlt (hp q hq)
    · split
      · rename_i _ heq
        subst heq
        exact Memory.wf_consCell (Memory.wf_tail hm) hp hk
      · have ih := ih (Memory.wf_tail hm)
        refine ⟨List.pairwise_cons.2 ⟨fun q hq => ?_, ih.1⟩, fun q hq => ?_⟩
        · rcases Memory.mem_setByte hq with h | h
          · simp only [h]; omega
          · exact hp q h
        · rcases List.mem_cons.1 hq with rfl | hq
          · exact hm.2 _ (by simp)
          · exact ih.2 q hq

/-! ### Whole words -/

/-- The number a word of two bytes stands for (R163). -/
theorem wordOfBytes_toNat (high low : Byte) : (wordOfBytes high low).toNat = low.toNat + 256 * high.toNat := by
  have h1 := high.isLt
  have h2 := low.isLt
  simp only [wordOfBytes, BitVec.toNat_ofNat]
  omega

@[simp] theorem wordOfBytes_high_low (v : Word) : wordOfBytes (highByte v) (lowByte v) = v := by
  have h := v.isLt
  apply BitVec.eq_of_toNat_eq
  simp only [wordOfBytes_toNat, highByte, lowByte, BitVec.toNat_ofNat]
  omega

@[simp] theorem lowByte_wordOfBytes (high low : Byte) : lowByte (wordOfBytes high low) = low := by
  have h := low.isLt
  apply BitVec.eq_of_toNat_eq
  simp only [lowByte, wordOfBytes_toNat, BitVec.toNat_ofNat]
  omega

@[simp] theorem highByte_wordOfBytes (high low : Byte) : highByte (wordOfBytes high low) = high := by
  have h1 := high.isLt
  have h2 := low.isLt
  apply BitVec.eq_of_toNat_eq
  simp only [highByte, wordOfBytes_toNat, BitVec.toNat_ofNat]
  omega

@[simp] theorem Memory.read_nil (a : Nat) : Memory.read [] a = 0 := by
  simp [Memory.read, unlistedByte, wordOfBytes]

/-- A byte read after a word write. -/
theorem Memory.byteAt_write {m : Memory} (hm : m.wf) {a : Nat} (ha : a < Config.memWords) (v : Word) (k : Nat) :
    (m.write a v).byteAt k = if k = 2 * a + 1 then highByte v else if k = 2 * a then lowByte v else m.byteAt k := by
  unfold Memory.write
  have hlo : 2 * a < 2 * Config.memWords := by omega
  rw [Memory.byteAt_setByte (Memory.wf_setByte hm hlo _).1, Memory.byteAt_setByte hm.1]

/-- A word read after a word write. -/
theorem Memory.read_write {m : Memory} (hm : m.wf) {a : Nat} (ha : a < Config.memWords) (v : Word) (a' : Nat) :
    (m.write a v).read a' = if a' = a then v else m.read a' := by
  unfold Memory.read
  rw [Memory.byteAt_write hm ha, Memory.byteAt_write hm ha]
  by_cases h : a' = a
  · simp [h]
  · simp [h, show ¬ 2 * a' = 2 * a + 1 by omega, show ¬ 2 * a' + 1 = 2 * a by omega]

theorem Memory.wf_write {m : Memory} (hm : m.wf) {a : Nat} (ha : a < Config.memWords) (v : Word) : (m.write a v).wf := by
  unfold Memory.write
  exact Memory.wf_setByte (Memory.wf_setByte hm (by omega) _) (by omega) _

theorem Memory.wf_writeWords {m : Memory} (hm : m.wf) (a : Nat) (ws : List Word) : (m.writeWords a ws).wf := by
  induction ws generalizing m a with
  | nil => exact hm
  | cons w ws ih =>
    simp only [Memory.writeWords]
    split
    · rename_i h
      exact ih (Memory.wf_write hm h w) (a + 1)
    · exact hm

/-- `readWords` is exact: the word at `a` and then the rest, or nothing at the end of memory. -/
theorem Memory.readWords_succ (m : Memory) (n a : Nat) :
    m.readWords (n + 1) a = if a < Config.memWords then m.read a :: m.readWords n (a + 1) else [] := rfl

/-- As many words are read as are asked for and as memory still has (R71). -/
theorem Memory.readWords_length (m : Memory) (n a : Nat) : (m.readWords n a).length = min n (Config.memWords - a) := by
  induction n generalizing a with
  | zero => simp [Memory.readWords]
  | succ n ih =>
    simp only [Memory.readWords]
    split
    · simp only [List.length_cons, ih]; omega
    · simp only [List.length_nil]; omega

end Sys2Proof.Machine
end

