-- ==== Sys2Proof/Laws/State.lean ====
section
/-! SUPPORT. One lemma per field per update of `State`, each true by `rfl`, so that no later proof unfolds a record update; and reading a register
after each update. -/

namespace Sys2Proof.Machine

variable (s : State)

/-! ### `setReg` -/

@[simp] theorem State.setReg_regs (r : RegIdx) (v : Word) : (s.setReg r v).regs = s.regs.set r.val v r.isLt := rfl
@[simp] theorem State.setReg_pc (r : RegIdx) (v : Word) : (s.setReg r v).pc = s.pc := rfl
@[simp] theorem State.setReg_stack (r : RegIdx) (v : Word) : (s.setReg r v).stack = s.stack := rfl
@[simp] theorem State.setReg_mem (r : RegIdx) (v : Word) : (s.setReg r v).mem = s.mem := rfl
@[simp] theorem State.setReg_run (r : RegIdx) (v : Word) : (s.setReg r v).run = s.run := rfl
@[simp] theorem State.setReg_output (r : RegIdx) (v : Word) : (s.setReg r v).output = s.output := rfl
@[simp] theorem State.setReg_input (r : RegIdx) (v : Word) : (s.setReg r v).input = s.input := rfl
@[simp] theorem State.setReg_freeIndex (r : RegIdx) (v : Word) : (s.setReg r v).freeIndex = s.freeIndex := rfl

/-! ### `setPc` -/

@[simp] theorem State.setPc_regs (t : Word) : (s.setPc t).regs = s.regs := rfl
@[simp] theorem State.setPc_pc (t : Word) : (s.setPc t).pc = t := rfl
@[simp] theorem State.setPc_stack (t : Word) : (s.setPc t).stack = s.stack := rfl
@[simp] theorem State.setPc_mem (t : Word) : (s.setPc t).mem = s.mem := rfl
@[simp] theorem State.setPc_run (t : Word) : (s.setPc t).run = s.run := rfl
@[simp] theorem State.setPc_output (t : Word) : (s.setPc t).output = s.output := rfl
@[simp] theorem State.setPc_input (t : Word) : (s.setPc t).input = s.input := rfl
@[simp] theorem State.setPc_freeIndex (t : Word) : (s.setPc t).freeIndex = s.freeIndex := rfl
@[simp] theorem State.setPc_reg (t : Word) (q : RegIdx) : (s.setPc t).reg q = s.reg q := rfl

/-! ### `advance` -/

@[simp] theorem State.advance_regs (n : Nat) : (s.advance n).regs = s.regs := rfl
@[simp] theorem State.advance_pc (n : Nat) : (s.advance n).pc = s.pc + BitVec.ofNat 16 n := rfl
@[simp] theorem State.advance_stack (n : Nat) : (s.advance n).stack = s.stack := rfl
@[simp] theorem State.advance_mem (n : Nat) : (s.advance n).mem = s.mem := rfl
@[simp] theorem State.advance_run (n : Nat) : (s.advance n).run = s.run := rfl
@[simp] theorem State.advance_output (n : Nat) : (s.advance n).output = s.output := rfl
@[simp] theorem State.advance_input (n : Nat) : (s.advance n).input = s.input := rfl
@[simp] theorem State.advance_freeIndex (n : Nat) : (s.advance n).freeIndex = s.freeIndex := rfl
@[simp] theorem State.advance_reg (n : Nat) (q : RegIdx) : (s.advance n).reg q = s.reg q := rfl

/-! ### `push` -/

@[simp] theorem State.push_regs (v : Word) : (s.push v).regs = s.regs := rfl
@[simp] theorem State.push_pc (v : Word) : (s.push v).pc = s.pc := rfl
@[simp] theorem State.push_stack (v : Word) : (s.push v).stack = v :: s.stack := rfl
@[simp] theorem State.push_mem (v : Word) : (s.push v).mem = s.mem := rfl
@[simp] theorem State.push_run (v : Word) : (s.push v).run = s.run := rfl
@[simp] theorem State.push_output (v : Word) : (s.push v).output = s.output := rfl
@[simp] theorem State.push_input (v : Word) : (s.push v).input = s.input := rfl
@[simp] theorem State.push_freeIndex (v : Word) : (s.push v).freeIndex = s.freeIndex := rfl
@[simp] theorem State.push_reg (v : Word) (q : RegIdx) : (s.push v).reg q = s.reg q := rfl

/-! ### `memWrite` -/

@[simp] theorem State.memWrite_regs (a : Val) (v : Word) : (s.memWrite a v).regs = s.regs := rfl
@[simp] theorem State.memWrite_pc (a : Val) (v : Word) : (s.memWrite a v).pc = s.pc := rfl
@[simp] theorem State.memWrite_stack (a : Val) (v : Word) : (s.memWrite a v).stack = s.stack := rfl
@[simp] theorem State.memWrite_mem (a : Val) (v : Word) : (s.memWrite a v).mem = s.mem.write a.toNat v := rfl
@[simp] theorem State.memWrite_run (a : Val) (v : Word) : (s.memWrite a v).run = s.run := rfl
@[simp] theorem State.memWrite_output (a : Val) (v : Word) : (s.memWrite a v).output = s.output := rfl
@[simp] theorem State.memWrite_input (a : Val) (v : Word) : (s.memWrite a v).input = s.input := rfl
@[simp] theorem State.memWrite_freeIndex (a : Val) (v : Word) : (s.memWrite a v).freeIndex = s.freeIndex := rfl
@[simp] theorem State.memWrite_reg (a : Val) (v : Word) (q : RegIdx) : (s.memWrite a v).reg q = s.reg q := rfl

/-! ### `emit` -/

@[simp] theorem State.emit_regs (b : Byte) : (s.emit b).regs = s.regs := rfl
@[simp] theorem State.emit_pc (b : Byte) : (s.emit b).pc = s.pc := rfl
@[simp] theorem State.emit_stack (b : Byte) : (s.emit b).stack = s.stack := rfl
@[simp] theorem State.emit_mem (b : Byte) : (s.emit b).mem = s.mem := rfl
@[simp] theorem State.emit_run (b : Byte) : (s.emit b).run = s.run := rfl
@[simp] theorem State.emit_output (b : Byte) : (s.emit b).output = s.output ++ [b] := rfl
@[simp] theorem State.emit_input (b : Byte) : (s.emit b).input = s.input := rfl
@[simp] theorem State.emit_freeIndex (b : Byte) : (s.emit b).freeIndex = s.freeIndex := rfl
@[simp] theorem State.emit_reg (b : Byte) (q : RegIdx) : (s.emit b).reg q = s.reg q := rfl

/-! ### `halt` -/

@[simp] theorem State.halt_regs (c : HaltCause) : (s.halt c).regs = s.regs := rfl
@[simp] theorem State.halt_pc (c : HaltCause) : (s.halt c).pc = s.pc := rfl
@[simp] theorem State.halt_stack (c : HaltCause) : (s.halt c).stack = s.stack := rfl
@[simp] theorem State.halt_mem (c : HaltCause) : (s.halt c).mem = s.mem := rfl
@[simp] theorem State.halt_run (c : HaltCause) : (s.halt c).run = .halted c := rfl
@[simp] theorem State.halt_output (c : HaltCause) : (s.halt c).output = s.output := rfl
@[simp] theorem State.halt_input (c : HaltCause) : (s.halt c).input = s.input := rfl
@[simp] theorem State.halt_freeIndex (c : HaltCause) : (s.halt c).freeIndex = s.freeIndex := rfl
@[simp] theorem State.halt_reg (c : HaltCause) (q : RegIdx) : (s.halt c).reg q = s.reg q := rfl

/-! ### `supplyInput` -/

@[simp] theorem State.supplyInput_regs (bytes : List Byte) : (s.supplyInput bytes).regs = s.regs := rfl
@[simp] theorem State.supplyInput_pc (bytes : List Byte) : (s.supplyInput bytes).pc = s.pc := rfl
@[simp] theorem State.supplyInput_stack (bytes : List Byte) : (s.supplyInput bytes).stack = s.stack := rfl
@[simp] theorem State.supplyInput_mem (bytes : List Byte) : (s.supplyInput bytes).mem = s.mem := rfl
@[simp] theorem State.supplyInput_run (bytes : List Byte) : (s.supplyInput bytes).run = s.run := rfl
@[simp] theorem State.supplyInput_output (bytes : List Byte) : (s.supplyInput bytes).output = s.output := rfl
@[simp] theorem State.supplyInput_input (bytes : List Byte) : (s.supplyInput bytes).input = s.input ++ bytes := rfl
@[simp] theorem State.supplyInput_freeIndex (bytes : List Byte) : (s.supplyInput bytes).freeIndex = s.freeIndex := rfl
@[simp] theorem State.supplyInput_reg (bytes : List Byte) (q : RegIdx) : (s.supplyInput bytes).reg q = s.reg q := rfl

/-! ### `placeWords` -/

@[simp] theorem State.placeWords_regs (ws : List Word) : (s.placeWords ws).regs = s.regs := rfl
@[simp] theorem State.placeWords_pc (ws : List Word) : (s.placeWords ws).pc = s.pc := rfl
@[simp] theorem State.placeWords_stack (ws : List Word) : (s.placeWords ws).stack = s.stack := rfl
@[simp] theorem State.placeWords_mem (ws : List Word) : (s.placeWords ws).mem = s.mem.writeWords s.pc.toNat ws := rfl
@[simp] theorem State.placeWords_run (ws : List Word) : (s.placeWords ws).run = s.run := rfl
@[simp] theorem State.placeWords_output (ws : List Word) : (s.placeWords ws).output = s.output := rfl
@[simp] theorem State.placeWords_input (ws : List Word) : (s.placeWords ws).input = s.input := rfl
@[simp] theorem State.placeWords_freeIndex (ws : List Word) : (s.placeWords ws).freeIndex = s.freeIndex := rfl
@[simp] theorem State.placeWords_reg (ws : List Word) (q : RegIdx) : (s.placeWords ws).reg q = s.reg q := rfl

/-! ### `faulted` -/

@[simp] theorem State.faulted_regs (e : FaultReason) : (s.faulted e).regs = s.regs := rfl
@[simp] theorem State.faulted_pc (e : FaultReason) : (s.faulted e).pc = Config.freePc s.freeIndex := rfl
@[simp] theorem State.faulted_stack (e : FaultReason) : (s.faulted e).stack = s.stack := rfl
@[simp] theorem State.faulted_mem (e : FaultReason) : (s.faulted e).mem = s.mem := rfl
@[simp] theorem State.faulted_run (e : FaultReason) : (s.faulted e).run = .faulted e s.pc := rfl
@[simp] theorem State.faulted_output (e : FaultReason) : (s.faulted e).output = s.output := rfl
@[simp] theorem State.faulted_input (e : FaultReason) : (s.faulted e).input = s.input := rfl
@[simp] theorem State.faulted_freeIndex (e : FaultReason) : (s.faulted e).freeIndex = s.freeIndex + 1 := rfl
@[simp] theorem State.faulted_reg (e : FaultReason) (q : RegIdx) : (s.faulted e).reg q = s.reg q := rfl

/-! ### Reading a register after a register write -/

theorem State.reg_setReg (r q : RegIdx) (v : Word) : (s.setReg r v).reg q = if q = r then v else s.reg q := by
  by_cases h : q = r
  · simp [State.reg, State.setReg, h]
  · have h' : ¬ r.val = q.val := fun e => h (Fin.ext e.symm)
    simp [State.reg, State.setReg, h, h']

@[simp] theorem State.reg_setReg_self (r : RegIdx) (v : Word) : (s.setReg r v).reg r = v := by
  simp [State.reg_setReg]

theorem State.reg_setReg_ne {r q : RegIdx} (h : q ≠ r) (v : Word) : (s.setReg r v).reg q = s.reg q := by
  simp [State.reg_setReg, h]

/-! ### Popping the stack, taking an input byte -/

theorem State.popTop_nil (h : s.stack = []) : s.popTop = none := by simp [State.popTop, h]

theorem State.popTop_cons {v : Word} {rest : List Word} (h : s.stack = v :: rest) :
    s.popTop = some (v, { s with stack := rest }) := by simp [State.popTop, h]

theorem State.nextInput_nil (h : s.input = []) : s.nextInput = none := by simp [State.nextInput, h]

theorem State.nextInput_cons {b : Byte} {rest : List Byte} (h : s.input = b :: rest) :
    s.nextInput = some (b, { s with input := rest }) := by simp [State.nextInput, h]

@[simp] theorem State.reg_withStack (st : List Word) (q : RegIdx) : State.reg { s with stack := st } q = s.reg q := rfl

@[simp] theorem State.reg_withInput (bs : List Byte) (q : RegIdx) : State.reg { s with input := bs } q = s.reg q := rfl

@[simp] theorem State.sp_push (v : Word) : (s.push v).sp = s.sp + 1 := rfl

end Sys2Proof.Machine
end

