-- ==== Sys2Proof/Laws/Ops.lean ====
section
/-! SUPPORT. One lemma for each shared operation of the meanings, saying once what it can answer. -/

namespace Sys2Proof.Machine

/-! ### Resolving operands -/

@[simp] theorem src_lit (v : Val) (s : State) : src (.lit v) s = v := rfl

@[simp] theorem src_reg (r : RegIdx) (s : State) : src (.reg r) s = reduce (s.reg r) := rfl

theorem reduce_toNat (w : Word) : (reduce w).toNat = w.toNat % 32768 := by simp [reduce]

@[simp] theorem zextVal_toNat (v : Val) : (zextVal v).toNat = v.toNat := by
  simp only [zextVal, BitVec.toNat_setWidth]
  exact Nat.mod_eq_of_lt (by have := v.isLt; omega)

@[simp] theorem zextByte_toNat (b : Byte) : (zextByte b).toNat = b.toNat := by
  simp only [zextByte, BitVec.toNat_setWidth]
  exact Nat.mod_eq_of_lt (by have := b.isLt; omega)

/-- Every address an instruction forms is in memory (R37). -/
theorem val_lt_memWords (v : Val) : v.toNat < Config.memWords := v.isLt

@[simp] theorem dst_reg (r : RegIdx) : dst (.reg r) = some r := rfl

theorem dst_lit (v : Val) (h : v.toNat < Config.numRegs) : dst (.lit v) = some ⟨v.toNat, h⟩ := by simp [dst, h]

/-- A destination resolves exactly where the syntax is well formed (R54, R75). -/
theorem dst_isSome (a : Operand) : (dst a).isSome = a.isDest := by
  cases a with
  | lit v => by_cases h : v.toNat < Config.numRegs <;> simp [dst, Operand.isDest, h]
  | reg r => rfl

/-! ### `withDst`, `writeDst` -/

theorem withDst_some {a : Operand} {r : RegIdx} (h : dst a = some r) (s : State) (k : RegIdx → Answer) :
    withDst a s k = k r := by simp [withDst, h]

theorem withDst_none {a : Operand} (h : dst a = none) (s : State) (k : RegIdx → Answer) :
    withDst a s k = .next (s.faulted .registerIndexOutOfRange) := by simp [withDst, h, raise]

theorem writeDst_some {a : Operand} {r : RegIdx} (h : dst a = some r) (n : Nat) (v : Word) (s : State) :
    writeDst a n v s = .next ((s.advance n).setReg r v) := withDst_some h s _

/-- Everything `writeDst` can answer. -/
theorem writeDst_cases (a : Operand) (n : Nat) (v : Word) (s : State) :
    (∃ r, dst a = some r ∧ writeDst a n v s = .next ((s.advance n).setReg r v)) ∨
      (dst a = none ∧ writeDst a n v s = .next (s.faulted .registerIndexOutOfRange)) := by
  cases h : dst a with
  | none => exact .inr ⟨rfl, withDst_none h s _⟩
  | some r => exact .inl ⟨r, rfl, writeDst_some h n v s⟩

/-! ### The stack and the streams -/

/-- Everything `popTop` can answer. -/
theorem State.popTop_cases (s : State) :
    (s.stack = [] ∧ s.popTop = none) ∨
      ∃ v rest, s.stack = v :: rest ∧ s.popTop = some (v, { s with stack := rest }) := by
  cases h : s.stack with
  | nil => exact .inl ⟨rfl, s.popTop_nil h⟩
  | cons v rest => exact .inr ⟨v, rest, rfl, s.popTop_cons h⟩

/-- Everything `nextInput` can answer. -/
theorem State.nextInput_cases (s : State) :
    (s.input = [] ∧ s.nextInput = none) ∨
      ∃ b rest, s.input = b :: rest ∧ s.nextInput = some (b, { s with input := rest }) := by
  cases h : s.input with
  | nil => exact .inl ⟨rfl, s.nextInput_nil h⟩
  | cons b rest => exact .inr ⟨b, rest, rfl, s.nextInput_cons h⟩

/-! ### Data memory -/

theorem State.memRead_memWrite {s : State} (h : s.mem.wf) (a a' : Val) (v : Word) :
    (s.memWrite a v).memRead a' = if a' = a then v else s.memRead a' := by
  simp only [State.memRead, State.memWrite_mem, Memory.read_write h (val_lt_memWords a), BitVec.toNat_inj]

theorem State.wf_memWrite {s : State} (h : s.mem.wf) (a : Val) (v : Word) : (s.memWrite a v).mem.wf :=
  Memory.wf_write h (val_lt_memWords a) v

/-! ### The ALU on its possible answers -/

theorem aluMod_zero (b : Val) : aluMod b 0 = none := rfl

theorem aluMod_ne {c : Val} (h : c ≠ 0) (b : Val) : aluMod b c = some (BitVec.ofNat 15 (b.toNat % c.toNat)) := by
  exact if_neg h

/-! ### `step` -/

theorem step_running_ok {s : State} {i : Instr} (hr : s.run = .running) (hd : s.fetchDecode = .ok i) :
    step s = exec i s := by simp [step, hr, hd]

theorem step_running_error {s : State} {e : FaultReason} (hr : s.run = .running) (hd : s.fetchDecode = .error e) :
    step s = .next (s.faulted e) := by simp [step, hr, hd, raise]

/-- Everything a step can be. -/
theorem step_cases (s : State) :
    (s.run = .running ∧ ∃ i, s.fetchDecode = .ok i ∧ step s = exec i s) ∨
      (s.run = .running ∧ ∃ e, s.fetchDecode = .error e ∧ step s = .next (s.faulted e)) ∨
      (s.run ≠ .running ∧ step s = .next s) := by
  cases hr : s.run with
  | running =>
    cases hd : s.fetchDecode with
    | ok i => exact .inl ⟨rfl, i, rfl, step_running_ok hr hd⟩
    | error e => exact .inr (.inl ⟨rfl, e, rfl, step_running_error hr hd⟩)
  | halted c => exact .inr (.inr ⟨by simp, by simp [step, hr]⟩)
  | faulted e p => exact .inr (.inr ⟨by simp, by simp [step, hr]⟩)

end Sys2Proof.Machine
end

