-- ==== Sys2Proof/Laws/Instructions.lean ====
section
/-! SUPPORT. The meanings that branch, one equation per branch, so that no later proof unfolds one; and everything each of them can answer. -/

namespace Sys2Proof.Machine

variable {a b c : Operand} {r : RegIdx} {s : State}

/-! ### POP and RET -/

theorem execPop_cons (h : dst a = some r) {v : Word} {rest : List Word} (hs : s.stack = v :: rest) :
    execPop a s = .next ((State.advance { s with stack := rest } 2).setReg r v) := by
  simp only [execPop, withDst_some h, s.popTop_cons hs]

theorem execPop_nil (h : dst a = some r) (hs : s.stack = []) :
    execPop a s = .next ((s.advance 2).halt .stackUnderflow) := by
  simp only [execPop, withDst_some h, s.popTop_nil hs]

theorem execRet_cons {v : Word} {rest : List Word} (hs : s.stack = v :: rest) :
    execRet s = .next (State.setPc { s with stack := rest } v) := by
  simp only [execRet, s.popTop_cons hs]

theorem execRet_nil (hs : s.stack = []) : execRet s = .next ((s.advance 1).halt .stackUnderflow) := by
  simp only [execRet, s.popTop_nil hs]

/-! ### MOD -/

theorem execMod_zero (h : dst a = some r) (hc : src c s = 0) :
    execMod a b c s = .next (s.faulted .divideByZero) := by
  simp only [execMod, withDst_some h, hc, aluMod_zero, raise]

theorem execMod_ne (h : dst a = some r) (hc : src c s ≠ 0) :
    execMod a b c s =
      .next ((s.advance 4).setReg r (zextVal (BitVec.ofNat 15 ((src b s).toNat % (src c s).toNat)))) := by
  simp only [execMod, withDst_some h, aluMod_ne hc]

/-! ### IN -/

theorem execIn_cons (h : dst a = some r) {ch : Byte} {rest : List Byte} (hs : s.input = ch :: rest) :
    execIn a s = .next ((State.advance { s with input := rest } 2).setReg r (zextByte ch)) := by
  simp only [execIn, withDst_some h, s.nextInput_cons hs]

theorem execIn_nil (h : dst a = some r) (hs : s.input = []) : execIn a s = .next s := by
  simp only [execIn, withDst_some h, s.nextInput_nil hs]

/-! ### A destination out of range, for each of the three that do not end in `writeDst` -/

theorem execPop_none (h : dst a = none) : execPop a s = .next (s.faulted .registerIndexOutOfRange) := withDst_none h s _

theorem execMod_none (h : dst a = none) : execMod a b c s = .next (s.faulted .registerIndexOutOfRange) :=
  withDst_none h s _

theorem execIn_none (h : dst a = none) : execIn a s = .next (s.faulted .registerIndexOutOfRange) := withDst_none h s _

/-! ### Everything each can answer -/

/-- POP (R92). -/
theorem execPop_cases (a : Operand) (s : State) :
    (dst a = none ∧ execPop a s = .next (s.faulted .registerIndexOutOfRange)) ∨
      (s.stack = [] ∧ execPop a s = .next ((s.advance 2).halt .stackUnderflow)) ∨
      ∃ r v rest, dst a = some r ∧ s.stack = v :: rest ∧
        execPop a s = .next ((State.advance { s with stack := rest } 2).setReg r v) := by
  cases h : dst a with
  | none => exact .inl ⟨rfl, execPop_none h⟩
  | some r =>
    cases hs : s.stack with
    | nil => exact .inr (.inl ⟨rfl, execPop_nil h hs⟩)
    | cons v rest => exact .inr (.inr ⟨r, v, rest, rfl, rfl, execPop_cons h hs⟩)

/-- RET (R109). -/
theorem execRet_cases (s : State) :
    (s.stack = [] ∧ execRet s = .next ((s.advance 1).halt .stackUnderflow)) ∨
      ∃ v rest, s.stack = v :: rest ∧ execRet s = .next (State.setPc { s with stack := rest } v) := by
  cases hs : s.stack with
  | nil => exact .inl ⟨rfl, execRet_nil hs⟩
  | cons v rest => exact .inr ⟨v, rest, rfl, execRet_cons hs⟩

/-- MOD (R113). -/
theorem execMod_cases (a b c : Operand) (s : State) :
    (dst a = none ∧ execMod a b c s = .next (s.faulted .registerIndexOutOfRange)) ∨
      (src c s = 0 ∧ execMod a b c s = .next (s.faulted .divideByZero)) ∨
      ∃ r, dst a = some r ∧ src c s ≠ 0 ∧ execMod a b c s =
        .next ((s.advance 4).setReg r (zextVal (BitVec.ofNat 15 ((src b s).toNat % (src c s).toNat)))) := by
  cases h : dst a with
  | none => exact .inl ⟨rfl, execMod_none h⟩
  | some r =>
    by_cases hc : src c s = 0
    · exact .inr (.inl ⟨hc, execMod_zero h hc⟩)
    · exact .inr (.inr ⟨r, rfl, hc, execMod_ne h hc⟩)

/-- IN (R127, R130). -/
theorem execIn_cases (a : Operand) (s : State) :
    (dst a = none ∧ execIn a s = .next (s.faulted .registerIndexOutOfRange)) ∨
      (s.input = [] ∧ execIn a s = .next s) ∨
      ∃ r ch rest, dst a = some r ∧ s.input = ch :: rest ∧
        execIn a s = .next ((State.advance { s with input := rest } 2).setReg r (zextByte ch)) := by
  cases h : dst a with
  | none => exact .inl ⟨rfl, execIn_none h⟩
  | some r =>
    cases hs : s.input with
    | nil => exact .inr (.inl ⟨rfl, execIn_nil h hs⟩)
    | cons ch rest => exact .inr (.inr ⟨r, ch, rest, rfl, rfl, execIn_cons h hs⟩)

end Sys2Proof.Machine
end

