-- ==== Sys2Proof/Laws/PerInstr.lean ====
section
/-! SUPPORT. Statements made once per instruction. Family `EncodedShape`: how an instruction is laid out in words (R50, R51). -/

namespace Sys2Proof.Laws.EncodedShape

/-- The encoding is one opcode word and then one word per operand, `Instr.numWords` in all, at most four (R50, R51). -/
def Statement (i : Instr) : Prop :=
  (encode i).head? = some (BitVec.ofNat 16 i.opcode) ∧ (encode i).length = i.numWords ∧ i.numWords ≤ Config.maxInstrWords

theorem halt : Statement (.halt) := ⟨rfl, rfl, (by decide : 1 ≤ 4)⟩
theorem set (a b : Operand) : Statement (.set a b) := ⟨rfl, rfl, (by decide : 3 ≤ 4)⟩
theorem push (a : Operand) : Statement (.push a) := ⟨rfl, rfl, (by decide : 2 ≤ 4)⟩
theorem pop (a : Operand) : Statement (.pop a) := ⟨rfl, rfl, (by decide : 2 ≤ 4)⟩
theorem eq (a b c : Operand) : Statement (.eq a b c) := ⟨rfl, rfl, (by decide : 4 ≤ 4)⟩
theorem gt (a b c : Operand) : Statement (.gt a b c) := ⟨rfl, rfl, (by decide : 4 ≤ 4)⟩
theorem jmp (a : Operand) : Statement (.jmp a) := ⟨rfl, rfl, (by decide : 2 ≤ 4)⟩
theorem jnz (a b : Operand) : Statement (.jnz a b) := ⟨rfl, rfl, (by decide : 3 ≤ 4)⟩
theorem jz (a b : Operand) : Statement (.jz a b) := ⟨rfl, rfl, (by decide : 3 ≤ 4)⟩
theorem add (a b c : Operand) : Statement (.add a b c) := ⟨rfl, rfl, (by decide : 4 ≤ 4)⟩
theorem mult (a b c : Operand) : Statement (.mult a b c) := ⟨rfl, rfl, (by decide : 4 ≤ 4)⟩
theorem mod (a b c : Operand) : Statement (.mod a b c) := ⟨rfl, rfl, (by decide : 4 ≤ 4)⟩
theorem and (a b c : Operand) : Statement (.and a b c) := ⟨rfl, rfl, (by decide : 4 ≤ 4)⟩
theorem or (a b c : Operand) : Statement (.or a b c) := ⟨rfl, rfl, (by decide : 4 ≤ 4)⟩
theorem not (a b : Operand) : Statement (.not a b) := ⟨rfl, rfl, (by decide : 3 ≤ 4)⟩
theorem rmem (a b : Operand) : Statement (.rmem a b) := ⟨rfl, rfl, (by decide : 3 ≤ 4)⟩
theorem wmem (a b : Operand) : Statement (.wmem a b) := ⟨rfl, rfl, (by decide : 3 ≤ 4)⟩
theorem call (a : Operand) : Statement (.call a) := ⟨rfl, rfl, (by decide : 2 ≤ 4)⟩
theorem ret : Statement (.ret) := ⟨rfl, rfl, (by decide : 1 ≤ 4)⟩
theorem out (a : Operand) : Statement (.out a) := ⟨rfl, rfl, (by decide : 2 ≤ 4)⟩
theorem inp (a : Operand) : Statement (.inp a) := ⟨rfl, rfl, (by decide : 2 ≤ 4)⟩
theorem noop : Statement (.noop) := ⟨rfl, rfl, (by decide : 1 ≤ 4)⟩

end Sys2Proof.Laws.EncodedShape
end

