-- ==== Sys2Proof/Machine/Assembly.lean ====
section
/-! DEFINITION. The assembler spelling of 30_encoding.md R62 (decision D16; presentation only, nothing in the machine reads it). -/

namespace Sys2Proof.Machine

/-- The mnemonic, in capitals exactly as in R56. -/
def mnemonic : Instr → String
  | .halt => "HALT"
  | .set _ _ => "SET"
  | .push _ => "PUSH"
  | .pop _ => "POP"
  | .eq _ _ _ => "EQ"
  | .gt _ _ _ => "GT"
  | .jmp _ => "JMP"
  | .jnz _ _ => "JNZ"
  | .jz _ _ => "JZ"
  | .add _ _ _ => "ADD"
  | .mult _ _ _ => "MULT"
  | .mod _ _ _ => "MOD"
  | .and _ _ _ => "AND"
  | .or _ _ _ => "OR"
  | .not _ _ => "NOT"
  | .rmem _ _ => "RMEM"
  | .wmem _ _ => "WMEM"
  | .call _ => "CALL"
  | .ret => "RET"
  | .out _ => "OUT"
  | .inp _ => "IN"
  | .noop => "NOOP"

/-- A register reference is `reg` and its number; a literal is a decimal number. -/
def spellOperand : Operand → String
  | .lit v => toString v.toNat
  | .reg r => "reg" ++ toString r.val

/-- The operands, each after a comma and a space but the first, which stands after one space. -/
def spellOperands : List Operand → String
  | [] => ""
  | a :: rest => " " ++ spellOperand a ++ String.join (rest.map fun o => ", " ++ spellOperand o)

/-- An instruction as R62 spells it. -/
def spell (i : Instr) : String := mnemonic i ++ spellOperands i.operands

end Sys2Proof.Machine
end

