-- ==== Sys2Proof/Tests/Slice0.lean ====
section
/-! SUPPORT. Tests and witnesses. Expected results come from spec/95_test_vectors.md (S<n>, T<n>, P<n> and the Part 2 tables) or from the encodings of
30_encoding.md R53 to R56 by hand; `<Statement>_witness` gives inputs that meet the hypotheses of the statement of that name, one clause after
another. -/

namespace Sys2Proof.Tests

open Sys2Proof Sys2Proof.Machine

/-- Reset, with `words` at address 0. -/
def start (words : List Word) : State := State.reset.placeWords words

/-- Reset, with `pc` and the words there. -/
def startAt (pc : Word) (words : List Word) : State := { State.reset with pc := pc }.placeWords words

/-- `s` with a stack, the top first. -/
def withStack (stack : List Word) (s : State) : State := { s with stack := stack }

/-- The answer is a next state of which `p` holds. -/
def onNext (a : Answer) (p : State → Bool) : Bool :=
  match a with
  | .next t => p t
  | .fault _ => false
  | .refused _ => false

/-- The step from `s` is the fault `reason` with that `fault_pc`, everything but `pc` as before (R141). -/
def faultsAt (faultPc : Word) (reason : FaultReason) (s : State) : Bool :=
  onNext (step s) fun t => decide (t.run = .faulted reason faultPc ∧ t.regs = s.regs ∧ t.mem = s.mem ∧ t.stack = s.stack ∧
    t.output = s.output ∧ t.input = s.input)

/-! ### WellFormed: an ill-formed term for each destination, and the bounds of what is accepted -/

theorem test_illformed_destinations_refused :
    (Instr.set (.lit 8) (.lit 77)).wellFormed = false ∧ (Instr.pop (.lit 9)).wellFormed = false ∧
    (Instr.eq (.lit 8) (.lit 1) (.lit 1)).wellFormed = false ∧ (Instr.gt (.lit 32767) (.lit 1) (.lit 1)).wellFormed = false ∧
    (Instr.add (.lit 8) (.reg 0) (.reg 0)).wellFormed = false ∧ (Instr.mult (.lit 8) (.reg 0) (.reg 0)).wellFormed = false ∧
    (Instr.mod (.lit 9) (.lit 10) (.lit 0)).wellFormed = false ∧ (Instr.and (.lit 8) (.reg 0) (.reg 0)).wellFormed = false ∧
    (Instr.or (.lit 8) (.reg 0) (.reg 0)).wellFormed = false ∧ (Instr.not (.lit 8) (.reg 0)).wellFormed = false ∧
    (Instr.rmem (.lit 8) (.lit 0)).wellFormed = false ∧ (Instr.inp (.lit 8)).wellFormed = false := by decide

theorem test_wellformed_accepted :
    (Instr.set (.lit 7) (.lit 77)).wellFormed = true ∧ (Instr.pop (.reg 7)).wellFormed = true ∧
    (Instr.wmem (.lit 1000) (.lit 8)).wellFormed = true ∧ (Instr.jmp (.lit 32767)).wellFormed = true := by decide

/-! ### Decode: every constructor from words written out from R53 to R56 -/

theorem test_decode_halt : decode [0] = .ok (.halt, []) := by decide
theorem test_decode_set : decode [1, 3, 32769] = .ok (.set (.lit 3) (.reg 1), []) := by decide
theorem test_decode_push : decode [2, 32767] = .ok (.push (.lit 32767), []) := by decide
theorem test_decode_pop : decode [3, 32770] = .ok (.pop (.reg 2), []) := by decide
theorem test_decode_eq : decode [4, 32768, 32769, 5] = .ok (.eq (.reg 0) (.reg 1) (.lit 5), []) := by decide
theorem test_decode_gt : decode [5, 7, 4, 32775] = .ok (.gt (.lit 7) (.lit 4) (.reg 7), []) := by decide
theorem test_decode_jmp : decode [6, 100] = .ok (.jmp (.lit 100), []) := by decide
theorem test_decode_jnz : decode [7, 32768, 50] = .ok (.jnz (.reg 0) (.lit 50), []) := by decide
theorem test_decode_jz : decode [8, 0, 32769] = .ok (.jz (.lit 0) (.reg 1), []) := by decide
theorem test_decode_add : decode [9, 32768, 32769, 4, 19, 32768] = .ok (.add (.reg 0) (.reg 1) (.lit 4), [19, 32768]) := by decide
theorem test_decode_mult : decode [10, 32769, 32767, 2] = .ok (.mult (.reg 1) (.lit 32767) (.lit 2), []) := by decide
theorem test_decode_mod : decode [11, 32768, 10, 0] = .ok (.mod (.reg 0) (.lit 10) (.lit 0), []) := by decide
theorem test_decode_and : decode [12, 32768, 32769, 32767] = .ok (.and (.reg 0) (.reg 1) (.lit 32767), []) := by decide
theorem test_decode_or : decode [13, 32772, 1, 32770] = .ok (.or (.reg 4) (.lit 1) (.reg 2), []) := by decide
theorem test_decode_not : decode [14, 32771, 32770] = .ok (.not (.reg 3) (.reg 2), []) := by decide
theorem test_decode_rmem : decode [15, 32770, 100] = .ok (.rmem (.reg 2) (.lit 100), []) := by decide
theorem test_decode_wmem : decode [16, 100, 32768] = .ok (.wmem (.lit 100) (.reg 0), []) := by decide
theorem test_decode_call : decode [17, 32775] = .ok (.call (.reg 7), []) := by decide
theorem test_decode_ret : decode [18, 9] = .ok (.ret, [9]) := by decide
theorem test_decode_out : decode [19, 321] = .ok (.out (.lit 321), []) := by decide
theorem test_decode_in : decode [20, 4] = .ok (.inp (.lit 4), []) := by decide
theorem test_decode_noop : decode [21, 21] = .ok (.noop, [21]) := by decide

/-- The corner cases of decoding: the whole opcode word is matched. -/
theorem test_decode_rejects_opcodes :
    decode [22] = .error (.unknownOpcode 22) ∧ decode [65535, 1] = .error (.unknownOpcode 65535) ∧
    decode [32768] = .error (.unknownOpcode 32768) ∧ decode [32777] = .error (.unknownOpcode 32777) ∧
    decode [256] = .error (.unknownOpcode 256) ∧ decode [] = .error .memoryOutOfBounds := by decide

/-- S3 and the operand rows of Part 2; `a` is classified before `b` is fetched, and `InvalidOperand` is tested first (R78, R150). -/
theorem test_decode_rejects_operands :
    decode [1, 32768, 32777] = .error .invalidOperand ∧ decode [1, 32777, 5] = .error .invalidOperand ∧
    decode [16, 32777, 5] = .error .invalidOperand ∧ decode [1, 32776, 77] = .error .invalidOperand ∧
    decode [1, 8, 77] = .error .registerIndexOutOfRange ∧ decode [1, 32767, 77] = .error .registerIndexOutOfRange ∧
    decode [9, 8, 32776, 0] = .error .registerIndexOutOfRange ∧ decode [9, 32768, 32776, 65535] = .error .invalidOperand ∧
    decode [9, 32777] = .error .invalidOperand ∧ decode [9, 32768] = .error .memoryOutOfBounds := by decide

/-- `ADD reg0, reg1, 4` of S1 as the opcode table numbers its bits: `9 + 32768 * 2^16 + 32769 * 2^32 + 4 * 2^48`; bits from `nbits` up are zero. -/
theorem test_decodeTableWord :
    decodeTableWord 64 (9 + 32768 * 2 ^ 16 + 32769 * 2 ^ 32 + 4 * 2 ^ 48) = some (.add (.reg 0) (.reg 1) (.lit 4)) ∧
    decodeTableWord 16 19 = some (.out (.lit 0)) ∧ decodeTableWord 16 (19 + 7 * 2 ^ 16) = some (.out (.lit 0)) ∧
    decodeTableWord 16 22 = none := by decide

theorem test_withFetchWord : State.reset.withFetchWord 64 (1 + 32771 * 2 ^ 16 + 1234 * 2 ^ 32) = start [1, 32771, 1234, 0] := by
  decide

/-! ### One step of each instruction -/

theorem test_halt : step (start [0]) = .next { start [0] with run := .halted .haltInstruction, pc := 1 } := rfl

theorem test_halt_in_last_cell :
    onNext (step (startAt 32767 [0])) (fun t => t.run = .halted .haltInstruction ∧ t.pc = 32768) = true := by decide

theorem test_set_reduces_source :
    onNext (step ((start [1, 32768, 32769]).setReg 1 40000)) (fun t => t.reg 0 = 7232 ∧ t.reg 1 = 40000 ∧ t.pc = 3) = true := by
  decide

theorem test_set_literal_destination : onNext (step (start [1, 3, 77])) (fun t => t.reg 3 = 77 ∧ t.pc = 3) = true := by decide

theorem test_push_reduces_source :
    onNext (step ((start [2, 32769]).setReg 1 32773)) (fun t => t.stack = [5] ∧ t.sp = 1 ∧ t.pc = 2) = true := by decide

theorem test_push_on_top :
    onNext (step (withStack [1] (start [2, 32767]))) (fun t => t.stackCell 0 = some 1 ∧ t.stackCell 1 = some 32767) = true := by
  decide

theorem test_pop_raw_word :
    onNext (step (withStack [32768, 5] (start [3, 32770]))) (fun t => t.reg 2 = 32768 ∧ t.stack = [5] ∧ t.pc = 2) = true := by decide

theorem test_pop_empty_halts :
    onNext (step ((start [3, 32770]).setReg 2 77)) (fun t => t.run = .halted .stackUnderflow ∧ t.reg 2 = 77 ∧ t.pc = 2) = true := by
  decide

theorem test_eq_source_is_destination :
    onNext (step ((start [4, 32768, 32768, 32768]).setReg 0 123)) (fun t => t.reg 0 = 1 ∧ t.pc = 4) = true := by decide

theorem test_eq_unequal : onNext (step ((start [4, 32768, 5, 6]).setReg 0 9)) (fun t => t.reg 0 = 0) = true := by decide

theorem test_gt_unsigned : onNext (step (start [5, 32768, 32767, 0])) (fun t => t.reg 0 = 1 ∧ t.pc = 4) = true := by decide

theorem test_gt_strict : onNext (step ((start [5, 32768, 5, 5]).setReg 0 9)) (fun t => t.reg 0 = 0) = true := by decide

theorem test_jmp_reduces_target : onNext (step ((start [6, 32769]).setReg 1 32768)) (fun t => t.pc = 0) = true := by decide

theorem test_jmp : onNext (step (start [6, 100])) (fun t => t.pc = 100) = true := by decide

theorem test_jnz_taken : onNext (step (start [7, 1, 50])) (fun t => t.pc = 50) = true := by decide

theorem test_jnz_not_taken : onNext (step ((start [7, 32768, 50]).setReg 0 32768)) (fun t => t.pc = 3) = true := by decide

theorem test_jz_taken : onNext (step (start [8, 0, 50])) (fun t => t.pc = 50) = true := by decide

theorem test_jz_not_taken : onNext (step ((start [8, 32768, 50]).setReg 0 3)) (fun t => t.pc = 3) = true := by decide

theorem test_add_scenario_S1 :
    onNext (step ((start [9, 32768, 32769, 4]).setReg 1 99)) (fun t => t.reg 0 = 103 ∧ t.pc = 4) = true := by decide

theorem test_add_wraps : onNext (step (start [9, 32768, 32767, 32767])) (fun t => t.reg 0 = 32766) = true := by decide

theorem test_mult_wide_product : onNext (step (start [10, 32768, 32767, 32767])) (fun t => t.reg 0 = 1 ∧ t.pc = 4) = true := by decide

theorem test_mult_wraps : onNext (step (start [10, 32768, 300, 300])) (fun t => t.reg 0 = 24464) = true := by decide

theorem test_mod : onNext (step (start [11, 32768, 10, 3])) (fun t => t.reg 0 = 1 ∧ t.pc = 4) = true := by decide

theorem test_mod_by_register_zero : faultsAt 0 .divideByZero ((start [11, 32768, 10, 32769]).setReg 1 32768) = true := by decide

theorem test_and : onNext (step (start [12, 32768, 32527, 4080])) (fun t => t.reg 0 = 3840 ∧ t.pc = 4) = true := by decide

theorem test_and_bit_15 : onNext (step ((start [12, 32768, 32769, 32767]).setReg 1 65535)) (fun t => t.reg 0 = 32767) = true := by decide

theorem test_or : onNext (step (start [13, 32768, 32527, 4080])) (fun t => t.reg 0 = 32767 ∧ t.pc = 4) = true := by decide

theorem test_or_bit_15 : onNext (step ((start [13, 32768, 32769, 0]).setReg 1 32769)) (fun t => t.reg 0 = 1) = true := by decide

theorem test_not : onNext (step (start [14, 32768, 21845])) (fun t => t.reg 0 = 10922 ∧ t.pc = 3) = true := by decide

theorem test_not_itself : onNext (step ((start [14, 32768, 32768]).setReg 0 1)) (fun t => t.reg 0 = 32766) = true := by decide

theorem test_rmem_own_operand_word : onNext (step (start [15, 32768, 1])) (fun t => t.reg 0 = 32768 ∧ t.pc = 3) = true := by decide

theorem test_rmem_reduces_address :
    onNext (step (({ start [15, 32768, 32769] with mem := (start [15, 32768, 32769]).mem.write 1000 65535 }).setReg 1 33768))
      (fun t => t.reg 0 = 65535) = true := by decide

theorem test_wmem_reduces_value :
    onNext (step ((start [16, 1000, 32769]).setReg 1 40001)) (fun t => t.mem.read 1000 = 7233 ∧ t.mem.read 999 = 0 ∧
      t.mem.read 1001 = 0 ∧ t.pc = 3) = true := by decide

theorem test_wmem_own_opcode_word :
    onNext (step (start [16, 0, 21])) (fun t => t.mem.read 0 = 21 ∧ t.mem.read 1 = 0 ∧ t.pc = 3) = true := by decide

theorem test_call : onNext (step ((start [17, 32775]).setReg 7 12)) (fun t => t.stack = [2] ∧ t.pc = 12) = true := by decide

theorem test_call_in_last_cells : onNext (step (startAt 32766 [17, 2])) (fun t => t.stack = [32768] ∧ t.pc = 2) = true := by decide

theorem test_ret_raw_word : onNext (step (withStack [40000, 3] (start [18]))) (fun t => t.stack = [3] ∧ t.pc = 40000) = true := by decide

theorem test_ret_empty_halts : onNext (step (start [18])) (fun t => t.run = .halted .stackUnderflow ∧ t.pc = 1) = true := by decide

theorem test_out_low_byte : onNext (step (start [19, 321])) (fun t => t.output = [65] ∧ t.pc = 2) = true := by decide

theorem test_out_appends :
    onNext (step { (start [19, 32768]).setReg 0 10 with output := [104, 105] }) (fun t => t.output = [104, 105, 10]) = true := by decide

theorem test_in_zero_extends :
    onNext (step ((start [20, 32772]).supplyInput [255, 1])) (fun t => t.reg 4 = 255 ∧ t.input = [1] ∧ t.pc = 2) = true := by decide

theorem test_in_waits : step (start [20, 32772]) = .next (start [20, 32772]) := rfl

theorem test_noop : step (start [21]) = .next { start [21] with pc := 1 } := rfl

/-! ### Faults: order and frame -/

/-- The operand faults of Part 2 that leave stack, memory and streams alone. -/
theorem test_operand_faults :
    faultsAt 0 .invalidOperand (withStack [4] (start [3, 32776])) = true ∧ faultsAt 0 .registerIndexOutOfRange (start [3, 9]) = true ∧
    faultsAt 0 .registerIndexOutOfRange (start [11, 9, 10, 0]) = true ∧ faultsAt 0 .invalidOperand (start [7, 0, 32777]) = true ∧
    faultsAt 0 .invalidOperand (start [16, 5, 32776]) = true ∧
    faultsAt 0 .invalidOperand ((start [20, 32776]).supplyInput [65]) = true ∧
    faultsAt 0 .registerIndexOutOfRange (start [20, 8]) = true := by decide

/-- The fetches at the end of memory. -/
theorem test_end_of_memory_faults :
    faultsAt 32768 .memoryOutOfBounds (startAt 32768 []) = true ∧ faultsAt 40000 .memoryOutOfBounds (startAt 40000 []) = true ∧
    faultsAt 32766 .invalidOperand (startAt 32766 [9, 32777]) = true ∧
    faultsAt 32766 .memoryOutOfBounds (startAt 32766 [9, 32768]) = true ∧
    faultsAt 32767 (.unknownOpcode 22) (startAt 32767 [22]) = true := by decide

/-! ### Loader, report, spelling, memory -/

/-- P10: the byte pairing, and a stream of odd length. -/
theorem test_loader_pairs_bytes :
    imageOfBytes [0x09, 0x00, 0x00, 0x80, 0x01, 0x80, 0x04, 0x00, 0x13, 0x00, 0x00, 0x80] = some [9, 32768, 32769, 4, 19, 32768] ∧
    imageOfBytes [9] = none := by decide

theorem test_boot : boot [18, 65535] = some (start [18, 65535]) := by decide

theorem test_report :
    (start [0]).report = none ∧ ({ start [0] with run := .halted .stackUnderflow }).report = some (.halted .stackUnderflow) ∧
    ((start []).faulted (.unknownOpcode 99)).report = some (.faulted (.unknownOpcode 99) 0) := by decide

/-- The spellings of P1 and of R62. -/
theorem test_spell : spell (.add (.reg 1) (.reg 0) (.lit 48)) = "ADD reg1, reg0, 48" ∧ spell .halt = "HALT" ∧
    spell (.inp (.reg 0)) = "IN reg0" := by decide

/-- A write keeps the canonical form: writing what an unlisted cell reads as removes the entry; low byte first (log 1). -/
theorem test_memory_canonical :
    Memory.wf [(6, 4), (7, 3)] ∧ Memory.write [] 3 0x0304 = [(6, 4), (7, 3)] ∧ Memory.write [(6, 4), (7, 3)] 3 0 = [] ∧
    ¬ Memory.wf [(7, 3), (6, 4)] ∧ ¬ Memory.wf [(6, 0)] ∧ ¬ Memory.wf [(65536, 1)] := by decide

/-! ### Witnesses: encoding -/

theorem DecodeOfEncodeGivesInstruction_witness :
    (Instr.add (.reg 0) (.reg 1) (.lit 4)).wellFormed = true ∧ (Instr.set (.lit 7) (.lit 32767)).wellFormed = true := by decide

theorem EncodeOfDecodeGivesWords_witness : decode [1, 7, 32775, 9] = .ok (.set (.lit 7) (.reg 7), [9]) := by decide

theorem OpcodeWordMatchedWhole_witness :
    (21 : Word).toNat ≤ 21 ∧ 22 ≤ (22 : Word).toNat ∧ decode [21] = .ok (.noop, []) ∧ decode [0] = .ok (.halt, []) ∧
    decode [22, 0] = .error (.unknownOpcode 22) ∧ 22 ≤ (65535 : Word).toNat := by decide

theorem OperandWordClasses_witness :
    (0 : Word).toNat ≤ 32767 ∧ (32767 : Word).toNat ≤ 32767 ∧ 32768 ≤ (32768 : Word).toNat ∧ (32775 : Word).toNat ≤ 32775 ∧
    32776 ≤ (32776 : Word).toNat ∧ 32776 ≤ (65535 : Word).toNat ∧ classify 32767 = some (.lit 32767) ∧
    classify 32768 = some (.reg 0) ∧ classify 32775 = some (.reg 7) ∧ classify 32776 = none := by decide

theorem DestinationWordRanges_witness :
    32776 ≤ (32776 : Word).toNat ∧ 8 ≤ (8 : Word).toNat ∧ (32767 : Word).toNat ≤ 32767 ∧ (7 : Word).toNat = (7 : RegIdx).val ∧
    (32775 : Word).toNat = 32768 + (7 : RegIdx).val ∧ takeDst [7] = .ok (.lit 7, []) ∧ takeDst [32768] = .ok (.reg 0, []) ∧
    takeDst [8] = .error .registerIndexOutOfRange ∧ takeDst [32776] = .error .invalidOperand := by decide

theorem SourceWordRanges_witness :
    32776 ≤ (32776 : Word).toNat ∧ (32767 : Word).toNat ≤ 32767 ∧ (32768 : Word).toNat = 32768 + (0 : RegIdx).val ∧
    (32775 : Word).toNat = 32768 + (7 : RegIdx).val := by decide

theorem LengthFixedByOpcode_witness :
    (Instr.set (.reg 0) (.lit 1)).opcode = (Instr.set (.lit 7) (.reg 2)).opcode ∧
    decode [4, 0, 1, 2, 3] = .ok (.eq (.lit 0) (.lit 1) (.lit 2), [3]) := by decide

/-! ### Witnesses: the step -/

theorem StepRunsDecodedInstruction_witness :
    (start [1, 32771, 1234]).run = .running ∧
    decode ((start [1, 32771, 1234]).mem.readWords 4 (start [1, 32771, 1234]).pc.toNat) = .ok (.set (.reg 3) (.lit 1234), [0]) := by
  decide

theorem StepRunsInstructionInMemory_witness :
    (startAt 32766 [19, 65]).run = .running ∧ (Instr.out (.lit 65)).wellFormed = true ∧
    (startAt 32766 [19, 65]).pc.toNat + (Instr.out (.lit 65)).numWords ≤ 32768 ∧
    ∀ k w, (encode (Instr.out (.lit 65)))[k]? = some w → (startAt 32766 [19, 65]).mem.read (32766 + k) = w := by
  refine ⟨by decide, by decide, by decide, fun k w h => ?_⟩
  match k with
  | 0 => obtain rfl : (19 : Word) = w := Option.some.inj h; decide
  | 1 => obtain rfl : (65 : Word) = w := Option.some.inj h; decide
  | k + 2 => exact absurd h (by simp [encode, Instr.operands])

theorem FetchPastEndFaults_witness :
    (startAt 32768 []).run = .running ∧ 32768 ≤ (startAt 32768 []).pc.toNat ∧
    (startAt 32766 [9, 32768]).run = .running ∧ (Instr.add (.reg 0) (.lit 0) (.lit 0)).wellFormed = true ∧
    1 < (Instr.add (.reg 0) (.lit 0) (.lit 0)).operands.length ∧
    (startAt 32766 [9, 32768]).fetchWords = (encode (.add (.reg 0) (.lit 0) (.lit 0))).take 2 ∧
    (startAt 32767 [9]).fetchWords = (encode (.add (.reg 0) (.lit 0) (.lit 0))).take 1 ∧
    (startAt 32765 [9, 32768, 5]).fetchWords = (encode (.add (.reg 0) (.lit 5) (.lit 0))).take 3 := by decide

theorem FetchPastEndFaults_converse_witness :
    step (startAt 32768 []) = .next ((startAt 32768 []).faulted .memoryOutOfBounds) ∧
    ((startAt 32768 []).faulted .memoryOutOfBounds).run = .faulted .memoryOutOfBounds 32768 ∧
    step (startAt 32767 [9]) = .next ((startAt 32767 [9]).faulted .memoryOutOfBounds) ∧
    ((startAt 32767 [9]).faulted .memoryOutOfBounds).run = .faulted .memoryOutOfBounds 32767 := ⟨rfl, rfl, rfl, rfl⟩

theorem UnknownOpcodeFaults_witness :
    (startAt 32767 [22]).run = .running ∧ (startAt 32767 [22]).pc.toNat < 32768 ∧
    22 ≤ ((startAt 32767 [22]).mem.read (startAt 32767 [22]).pc.toNat).toNat ∧
    22 ≤ ((start [65535]).mem.read (start [65535]).pc.toNat).toNat := by decide

theorem InvalidOperandWordFaults_witness :
    (start [9, 32776]).run = .running ∧ (Instr.add (.reg 0) (.lit 5) (.lit 0)).wellFormed = true ∧
    0 < (Instr.add (.reg 0) (.lit 5) (.lit 0)).operands.length ∧ 2 < (Instr.add (.reg 0) (.lit 5) (.lit 0)).operands.length ∧
    32776 ≤ (32776 : Word).toNat ∧ 32776 ≤ (65535 : Word).toNat ∧
    (start [9, 32776]).fetchWords = (encode (.add (.reg 0) (.lit 5) (.lit 0))).take 1 ++ 32776 :: [0, 0] ∧
    (start [9, 32768, 5, 65535]).fetchWords = (encode (.add (.reg 0) (.lit 5) (.lit 0))).take 3 ++ 65535 :: [] := by decide

theorem RegisterIndexFaultOnlyByDestination_witness :
    (start [1, 8, 77]).run = .running ∧ (Instr.set (.reg 0) (.lit 0)).destOperand.isSome = true ∧ 8 ≤ (8 : Word).toNat ∧
    (8 : Word).toNat ≤ 32767 ∧ (32767 : Word).toNat ≤ 32767 ∧
    (start [1, 8, 77]).fetchWords = BitVec.ofNat 16 (Instr.set (.reg 0) (.lit 0)).opcode :: 8 :: [77, 0] ∧
    faultsAt 0 .registerIndexOutOfRange (start [1, 8, 77]) = true := by decide

theorem RegisterIndexFaultOnlyByDestination_converse_witness :
    step (start [1, 32767, 77]) = .next ((start [1, 32767, 77]).faulted .registerIndexOutOfRange) ∧
    ((start [1, 32767, 77]).faulted .registerIndexOutOfRange).run = .faulted .registerIndexOutOfRange 0 := ⟨rfl, rfl⟩

theorem DivideByZeroOnlyByMod_witness :
    dst (.reg 0) = some 0 ∧ src (.lit 0) State.reset = 0 ∧ src (.reg 1) (State.reset.setReg 1 32768) = 0 := by decide

theorem DivideByZeroOnlyByMod_converse_witness :
    (start [11, 32768, 10, 0]).run = .running ∧
    step (start [11, 32768, 10, 0]) = .next ((start [11, 32768, 10, 0]).faulted .divideByZero) ∧
    ((start [11, 32768, 10, 0]).faulted .divideByZero).run = .faulted .divideByZero 0 := ⟨rfl, rfl, rfl⟩

theorem FaultEntryIsPrecise_witness :
    (startAt 40000 []).run = .running ∧ step (startAt 40000 []) = .next ((startAt 40000 []).faulted .memoryOutOfBounds) ∧
    ((startAt 40000 []).faulted .memoryOutOfBounds).run = .faulted .memoryOutOfBounds 40000 := ⟨rfl, rfl, rfl⟩

theorem StoppedMachineStays_witness :
    ({ State.reset with run := .halted .haltInstruction }).run ≠ .running ∧ (State.reset.faulted .invalidOperand).run ≠ .running := by
  decide

theorem HaltedInExactlyThreeWays_witness :
    (start [0]).run = .running ∧ (start [0]).fetchDecode = .ok .halt ∧ onNext (step (start [0])) (fun _ => true) = true ∧
    (start [18]).fetchDecode = .ok .ret ∧ (start [18]).stack = [] ∧ onNext (step (start [18])) (fun _ => true) = true ∧
    (start [3, 2]).fetchDecode = .ok (.pop (.lit 2)) ∧ (start [3, 2]).stack = [] ∧
    onNext (step (start [3, 2])) (fun t => t.run = .halted .stackUnderflow) = true := by decide

/-! ### Witnesses: instructions -/

theorem SetWritesSourceValue_witness : dst (.lit 0) = some 0 ∧ dst (.lit 7) = some 7 ∧ dst (.reg 7) = some 7 := by decide

theorem PopMovesTopOrHalts_witness :
    dst (.reg 2) = some 2 ∧ dst (.lit 2) = some 2 ∧ (withStack [32768, 5] State.reset).stack = 32768 :: [5] ∧ State.reset.stack = [] := by
  decide

theorem ComparisonsWriteOneOrZero_witness : dst (.lit 7) = some 7 ∧ dst (.reg 0) = some 0 := by decide

theorem RetPopsPcOrHalts_witness : (withStack [40000] State.reset).stack = 40000 :: [] ∧ State.reset.stack = [] := by decide

theorem ConditionalJumpsTestZero_witness :
    (src (.lit 1) State.reset).toNat ≠ 0 ∧ (src (.lit 32767) State.reset).toNat ≠ 0 ∧ (src (.reg 0) State.reset).toNat = 0 := by decide

theorem AddWritesSumModulo32768_witness : dst (.lit 7) = some 7 ∧ dst (.reg 0) = some 0 := by decide

theorem MultWritesProductModulo32768_witness : dst (.lit 0) = some 0 ∧ dst (.reg 7) = some 7 := by decide

theorem ModWritesRemainder_witness :
    dst (.reg 0) = some 0 ∧ src (.lit 1) State.reset ≠ 0 ∧ src (.lit 32767) State.reset ≠ 0 := by decide

theorem AndOrWriteBitwise_witness : dst (.lit 7) = some 7 ∧ dst (.reg 0) = some 0 ∧ 14 < 15 := by decide

theorem NotWritesComplement_witness : dst (.lit 7) = some 7 ∧ dst (.reg 0) = some 0 := by decide

theorem RmemLoadsWholeWord_witness : dst (.lit 7) = some 7 ∧ dst (.reg 0) = some 0 := by decide

theorem WmemStoresValue_witness : (start [16, 1000, 32769]).mem.wf := by decide

theorem InTakesOneByteOrWaits_witness :
    dst (.reg 4) = some 4 ∧ (State.reset.supplyInput [255, 1]).input = 255 :: [1] ∧ State.reset.input = [] := by decide

theorem DestinationOutOfRangeTraps_witness :
    (Instr.pop (.lit 8)).destOperand = some (.lit 8) ∧ 8 ≤ (8 : Val).toNat ∧
    (Instr.mod (.lit 32767) (.lit 1) (.lit 0)).destOperand = some (.lit 32767) ∧ 8 ≤ (32767 : Val).toNat := by decide

/-! ### Witnesses: the whole machine -/

theorem OnlyWmemChangesMemory_witness :
    step (start [21]) = .next { start [21] with pc := 1 } ∧ ∀ a b, (start [21]).fetchDecode ≠ .ok (.wmem a b) :=
  ⟨rfl, fun _ _ h => by cases (show Except.ok (ε := FaultReason) Instr.noop = _ from h)⟩

theorem OnlyDestinationRegisterChanges_witness :
    step (start [1, 3, 77]) = .next ({ start [1, 3, 77] with pc := 3 }.setReg 3 77) ∧
    ({ start [1, 3, 77] with pc := 3 }.setReg 3 77).reg 3 ≠ (start [1, 3, 77]).reg 3 := ⟨rfl, by decide⟩

theorem StackChangesOnlyAtTop_witness :
    step (start [2, 5]) = .next { start [2, 5] with pc := 2, stack := [5] } ∧
    ({ start [2, 5] with pc := 2, stack := [5] } : State).stack ≠ (start [2, 5]).stack ∧
    step (withStack [400, 3] (start [18])) = .next { start [18] with pc := 400, stack := [3] } ∧
    ({ start [18] with pc := 400, stack := [3] } : State).stack ≠ (withStack [400, 3] (start [18])).stack :=
  ⟨rfl, by decide, rfl, by decide⟩

theorem StreamsChangeOnlyByOutAndIn_witness :
    (start [19, 65]).run = .running ∧ (start [19, 65]).fetchDecode = .ok (.out (.lit 65)) ∧
    onNext (step (start [19, 65])) (fun t => t.output = [65]) = true ∧
    ((start [20, 4]).supplyInput [10]).fetchDecode = .ok (.inp (.lit 4)) ∧ ((start [20, 4]).supplyInput [10]).input = 10 :: [] ∧
    onNext (step ((start [20, 4]).supplyInput [10])) (fun t => t.input = []) = true ∧
    (start [21]).fetchDecode = .ok .noop ∧ onNext (step (start [21])) (fun _ => true) = true := by decide

theorem StoredWordsAreVals_witness :
    (start [21, 65535]).mem.wf ∧ step (start [21, 65535]) = .next { start [21, 65535] with pc := 1 } ∧
    32768 ≤ (({ start [21, 65535] with pc := 1 } : State).mem.read 1).toNat := ⟨by decide, rfl, by decide⟩

theorem HighWordsEnterRegistersByRmemPop_witness :
    step (start [15, 32768, 1]) = .next ({ start [15, 32768, 1] with pc := 3 }.setReg 0 32768) ∧
    ({ start [15, 32768, 1] with pc := 3 }.setReg 0 32768).reg 0 ≠ (start [15, 32768, 1]).reg 0 ∧
    32768 ≤ (({ start [15, 32768, 1] with pc := 3 }.setReg 0 32768).reg 0).toNat := ⟨rfl, by decide, by decide⟩

theorem CanonicalMemoriesAreEqual_witness :
    (start [9, 32768]).mem.wf ∧ ((start [0, 32768]).mem.write 0 9).wf ∧
    ∀ a, a < 32768 → (start [9, 32768]).mem.read a = ((start [0, 32768]).mem.write 0 9).read a := by
  have h : (start [9, 32768]).mem = (start [0, 32768]).mem.write 0 9 := by decide
  exact ⟨by decide, by decide, fun a _ => by rw [h]⟩

theorem MemWriteSetsOneCell_witness : (start [9, 32768]).mem.wf ∧ (32767 : Val) ≠ 0 := by decide

theorem StepKeepsInvariant_witness :
    State.reset.Inv ∧ step State.reset = .next { State.reset with run := .halted .haltInstruction, pc := 1 } :=
  ⟨⟨by decide, fun _ h => absurd h (by simp [State.reset]), fun _ => by decide⟩, rfl⟩

theorem BootHasInvariant_witness : boot [18, 65535] = some (start [18, 65535]) := by decide

theorem ReachableStatesAreBounded_witness : Reachable (start [17, 2]) ∧ (start [17, 2]).Safe ∧
    Reachable { start [17, 2] with stack := [2], pc := 2 } :=
  have h : Reachable (start [17, 2]) := .boot (image := [17, 2]) (by decide)
  ⟨h, fun _ _ e => (by cases e), Reachable.step h rfl⟩

theorem RegisterBit15IsInvisible_witness : AgreeBelowBit15 ((start [2, 32769]).setReg 1 32773) ((start [2, 32769]).setReg 1 5) :=
  ⟨by decide, rfl, rfl, rfl, rfl, rfl, rfl, rfl⟩

theorem CallThenRetReturns_witness :
    (start [17, 3, 0, 18]).run = .running ∧ (start [17, 3, 0, 18]).fetchDecode = .ok (.call (.lit 3)) ∧
    step (start [17, 3, 0, 18]) = .next { start [17, 3, 0, 18] with stack := [2], pc := 3 } ∧
    ({ start [17, 3, 0, 18] with stack := [2], pc := 3 } : State).fetchDecode = .ok .ret := ⟨rfl, rfl, rfl, rfl⟩

theorem WaitingInEndsWithInput_witness :
    (start [20, 32772]).run = .running ∧ (start [20, 32772]).fetchDecode = .ok (.inp (.reg 4)) ∧ dst (.reg 4) = some 4 ∧
    (start [20, 32772]).input = [] := by decide

theorem ImageOfBytesPairsLittleEndian_witness :
    [(0x09 : Byte), 0x00, 0x00, 0x80].length % 2 = 0 ∧ imageOfBytes [0x09, 0x00, 0x00, 0x80] = some [9, 32768] ∧
    ([] : List Byte).length % 2 = 0 := by decide

theorem BootPlacesImage_witness : ([] : List Word).length ≤ 32768 ∧ (List.replicate 32768 (0 : Word)).length ≤ 32768 :=
  ⟨Nat.zero_le _, Nat.le_of_eq List.length_replicate⟩

theorem OversizedImageRefused_witness : 32768 < (List.replicate 32769 (0 : Word)).length :=
  Nat.lt_of_lt_of_eq (by decide) List.length_replicate.symm

end Sys2Proof.Tests
end

section
/-! PROOFS. What the decoder accepts is well formed (R54, R75), so the destination of a decoded instruction resolves. -/

namespace Sys2Proof

theorem decodeOpcode_wellFormed {w : Word} {ws rest : List Word} {i : Instr} (h : decodeOpcode w ws = .ok (i, rest)) :
    i.wellFormed = true := by
  unfold decodeOpcode at h
  split at h
  case h_1 | h_19 | h_22 => -- F0
    obtain ⟨rfl, -⟩ := decodeF0_ok h
    rfl
  case h_3 | h_7 | h_18 | h_20 => -- F1v
    obtain ⟨a, rfl, -⟩ := decodeF1v_ok h
    rfl
  case h_4 | h_21 => -- F1d
    obtain ⟨a, ha, rfl, -⟩ := decodeF1d_ok h
    exact ha
  case h_2 | h_15 | h_16 => -- F2dv
    obtain ⟨a, b, ha, rfl, -⟩ := decodeF2dv_ok h
    exact ha
  case h_8 | h_9 | h_17 => -- F2vv
    obtain ⟨a, b, rfl, -⟩ := decodeF2vv_ok h
    rfl
  case h_5 | h_6 | h_10 | h_11 | h_12 | h_13 | h_14 => -- F3dvv
    obtain ⟨a, b, c, ha, rfl, -⟩ := decodeF3dvv_ok h
    exact ha
  case h_23 => cases h

theorem decode_wellFormed {ws rest : List Word} {i : Instr} (h : decode ws = .ok (i, rest)) : i.wellFormed = true := by
  cases ws with
  | nil => cases h
  | cons w ws => exact decodeOpcode_wellFormed h

namespace Machine

variable {s : State} {i : Instr} {a : Operand}

theorem fetchDecode_decode (h : s.fetchDecode = .ok i) : ∃ rest, decode s.fetchWords = .ok (i, rest) := by
  unfold State.fetchDecode at h
  split at h
  · rename_i j rest hd
    cases h
    exact ⟨rest, hd⟩
  · cases h

theorem fetchDecode_wellFormed (h : s.fetchDecode = .ok i) : i.wellFormed = true := by
  obtain ⟨rest, hd⟩ := fetchDecode_decode h
  exact decode_wellFormed hd

/-- A fetched instruction never faults on its destination: the decoder has already checked it (R75). -/
theorem dst_of_fetchDecode (h : s.fetchDecode = .ok i) (ha : i.destOperand = some a) : ∃ r, dst a = some r := by
  have hwf : a.isDest = true := by simpa [Instr.wellFormed, ha] using fetchDecode_wellFormed h
  exact Option.isSome_iff_exists.mp ((dst_isSome a).trans hwf)

end Machine

end Sys2Proof
end

section
/-! PROOFS. The two character streams (10_state.md R23): what OUT and IN do to them, and that nothing else touches them. -/

namespace Sys2Proof.Machine

variable {s t : State} {i : Instr} {a b c : Operand}

/-! ### The meanings that branch -/

theorem writeDst_keepsStreams {n : Nat} {v : Word} (h : writeDst a n v s = .next t) : KeepsStreams s t := by
  obtain ⟨r, -, e⟩ | ⟨-, e⟩ := writeDst_cases a n v s
  all_goals
    cases e.symm.trans h
    exact ⟨rfl, rfl⟩

theorem execPop_keepsStreams (h : execPop a s = .next t) : KeepsStreams s t := by
  obtain ⟨-, e⟩ | ⟨-, e⟩ | ⟨r, v, rest, -, -, e⟩ := execPop_cases a s
  all_goals
    cases e.symm.trans h
    exact ⟨rfl, rfl⟩

theorem execRet_keepsStreams (h : execRet s = .next t) : KeepsStreams s t := by
  obtain ⟨-, e⟩ | ⟨v, rest, -, e⟩ := execRet_cases s
  all_goals
    cases e.symm.trans h
    exact ⟨rfl, rfl⟩

theorem execMod_keepsStreams (h : execMod a b c s = .next t) : KeepsStreams s t := by
  obtain ⟨-, e⟩ | ⟨-, e⟩ | ⟨r, -, -, e⟩ := execMod_cases a b c s
  all_goals
    cases e.symm.trans h
    exact ⟨rfl, rfl⟩

theorem keepsStreams_ite {p : Prop} [Decidable p] {t' : State} (h : KeepsStreams s t) (h' : KeepsStreams s t') :
    KeepsStreams s (if p then t else t') := by
  split
  · exact h
  · exact h'

/-! ### OUT and IN -/

theorem execOut_output (h : execOut a s = .next t) : t.output = s.output ++ [(src a s).setWidth 8] := by
  cases h
  rfl

theorem execOut_input (h : execOut a s = .next t) : t.input = s.input := by
  cases h
  rfl

theorem execIn_output (h : execIn a s = .next t) : t.output = s.output := by
  obtain ⟨-, e⟩ | ⟨-, e⟩ | ⟨r, ch, rest, -, -, e⟩ := execIn_cases a s
  all_goals
    cases e.symm.trans h
    rfl

theorem execIn_input {r : RegIdx} {ch : Byte} {rest : List Byte} (ha : dst a = some r) (hs : s.input = ch :: rest)
    (h : execIn a s = .next t) : t.input = rest := by
  cases (execIn_cons ha hs).symm.trans h
  rfl

/-! ### Every instruction -/

theorem exec_keepsStreams (hout : ∀ a, i ≠ .out a) (hin : ∀ a, i ≠ .inp a) (h : exec i s = .next t) :
    KeepsStreams s t := by
  cases i with
  | out a => exact absurd rfl (hout a)
  | inp a => exact absurd rfl (hin a)
  | pop => exact execPop_keepsStreams h
  | ret => exact execRet_keepsStreams h
  | mod => exact execMod_keepsStreams h
  | set | eq | gt | add | mult | and | or | not | rmem => exact writeDst_keepsStreams h
  | jnz | jz =>
    cases h
    exact keepsStreams_ite ⟨rfl, rfl⟩ ⟨rfl, rfl⟩
  | halt | push | jmp | wmem | call | noop =>
    cases h
    exact ⟨rfl, rfl⟩

theorem exec_keepsOutput (hout : ∀ a, i ≠ .out a) (h : exec i s = .next t) : t.output = s.output := by
  by_cases hin : ∃ a, i = .inp a
  · obtain ⟨a, rfl⟩ := hin
    exact execIn_output h
  · exact (exec_keepsStreams hout (not_exists.mp hin) h).1

theorem exec_keepsInput (hin : ∀ a, i ≠ .inp a) (h : exec i s = .next t) : t.input = s.input := by
  by_cases hout : ∃ a, i = .out a
  · obtain ⟨a, rfl⟩ := hout
    exact execOut_input h
  · exact (exec_keepsStreams (not_exists.mp hout) hin h).2

/-! ### A step -/

theorem step_keepsOutput (hout : ∀ a, s.fetchDecode ≠ .ok (.out a)) (h : step s = .next t) : t.output = s.output := by
  obtain ⟨-, i, hd, e⟩ | ⟨-, r, -, e⟩ | ⟨-, e⟩ := step_cases s
  · exact exec_keepsOutput (fun a hi => hout a (hi ▸ hd)) (e.symm.trans h)
  · cases e.symm.trans h
    rfl
  · cases e.symm.trans h
    rfl

theorem step_keepsInput (hin : ∀ a, s.fetchDecode ≠ .ok (.inp a)) (h : step s = .next t) : t.input = s.input := by
  obtain ⟨-, i, hd, e⟩ | ⟨-, r, -, e⟩ | ⟨-, e⟩ := step_cases s
  · exact exec_keepsInput (fun a hi => hin a (hi ▸ hd)) (e.symm.trans h)
  · cases e.symm.trans h
    rfl
  · cases e.symm.trans h
    rfl

/-- Settles O44: the two streams are touched by OUT and IN alone. That IN always takes an available byte rests on the decoder's check of its
destination (`dst_of_fetchDecode`). -/
theorem streamsChangeOnlyByOutAndIn : Obligations.StreamsChangeOnlyByOutAndIn := by
  intro s t hrun ht
  refine ⟨fun a hd => ?_, fun hout => step_keepsOutput hout ht, fun a ch rest hd hs => ?_,
    fun hin => step_keepsInput hin ht⟩
  · exact ⟨_, execOut_output ((step_running_ok hrun hd).symm.trans ht)⟩
  · obtain ⟨r, hr⟩ := dst_of_fetchDecode hd rfl
    exact execIn_input hr hs ((step_running_ok hrun hd).symm.trans ht)

end Sys2Proof.Machine
end

section
/-! PROOFS. The opcode word and the length of an instruction (30_encoding.md R50, R52). -/

namespace Sys2Proof

variable {w v : Word} {ws rest : List Word} {i : Instr}

/-! ### What the decoder accepts -/

/-- What is decoded is the instruction of the opcode word's number, and its operand words are all that is taken after it (R52, R61). -/
theorem decodeOpcode_ok (h : decodeOpcode w ws = .ok (i, rest)) :
    i.opcode = w.toNat ∧ ws = i.operands.map Operand.word ++ rest := by
  unfold decodeOpcode at h
  split at h
  case h_23 => cases h
  all_goals rename_i hw; rw [hw]
  case h_1 | h_19 | h_22 => -- F0
    obtain ⟨rfl, rfl⟩ := decodeF0_ok h
    exact ⟨rfl, rfl⟩
  case h_3 | h_7 | h_18 | h_20 => -- F1v
    obtain ⟨a, rfl, rfl⟩ := decodeF1v_ok h
    exact ⟨rfl, rfl⟩
  case h_4 | h_21 => -- F1d
    obtain ⟨a, -, rfl, rfl⟩ := decodeF1d_ok h
    exact ⟨rfl, rfl⟩
  case h_2 | h_15 | h_16 => -- F2dv
    obtain ⟨a, b, -, rfl, rfl⟩ := decodeF2dv_ok h
    exact ⟨rfl, rfl⟩
  case h_8 | h_9 | h_17 => -- F2vv
    obtain ⟨a, b, rfl, rfl⟩ := decodeF2vv_ok h
    exact ⟨rfl, rfl⟩
  case h_5 | h_6 | h_10 | h_11 | h_12 | h_13 | h_14 => -- F3dvv
    obtain ⟨a, b, c, -, rfl, rfl⟩ := decodeF3dvv_ok h
    exact ⟨rfl, rfl⟩

/-- The decoder takes exactly the words of the instruction it gives (R50, R61). -/
theorem decode_ok_length (h : decode ws = .ok (i, rest)) : ws.length = i.numWords + rest.length := by
  cases ws with
  | nil => cases h
  | cons w ws =>
    obtain ⟨-, rfl⟩ := decodeOpcode_ok h
    simp only [Instr.numWords, List.length_cons, List.length_append, List.length_map]
    omega

/-! ### The number of operand words -/

/-- The number of operand words of each opcode: the formats of R56 (R50, R55). -/
def operandCount : Nat → Nat
  | 0 | 18 | 21 => 0
  | 2 | 3 | 6 | 17 | 19 | 20 => 1
  | 1 | 7 | 8 | 14 | 15 | 16 => 2
  | _ => 3

theorem operandCount_le (n : Nat) : operandCount n ≤ 3 := by
  unfold operandCount
  split <;> decide

theorem operands_length (i : Instr) : i.operands.length = operandCount i.opcode := by
  cases i <;> rfl

/-- Settles O8: the opcode fixes the number of operands (`operands_length`), and the decoder takes just these (`decode_ok_length`). -/
theorem lengthFixedByOpcode : Obligations.LengthFixedByOpcode := by
  refine ⟨fun i j h => ?_, fun i => ⟨rfl, ?_⟩, fun _ _ _ h => decode_ok_length h⟩
  · rw [operands_length, operands_length, h]
  · rw [operands_length]
    exact operandCount_le _

/-! ### Which words are opcodes -/

theorem takeSrc_ne_unknownOpcode : takeSrc ws ≠ .error (.unknownOpcode v) :=
  fun h => by simpa using takeSrc_error_ne h

theorem takeDst_ne_unknownOpcode : takeDst ws ≠ .error (.unknownOpcode v) :=
  fun h => by simpa using takeDst_error_ne h

/-- Only the opcode word is ever reported as an unknown opcode: every fault of an operand word is another one (R72). -/
theorem decodeOpcode_ne_unknownOpcode (hw : w.toNat ≤ 21) : decodeOpcode w ws ≠ .error (.unknownOpcode v) := by
  intro h
  unfold decodeOpcode at h
  split at h
  case h_1 | h_19 | h_22 => cases h -- F0
  case h_3 | h_7 | h_18 | h_20 => -- F1v
    exact takeSrc_ne_unknownOpcode (decodeF1v_error h)
  case h_4 | h_21 => -- F1d
    exact takeDst_ne_unknownOpcode (decodeF1d_error h)
  case h_2 | h_15 | h_16 => -- F2dv
    obtain h | ⟨_, _, -, h⟩ := decodeF2dv_error h
    · exact takeDst_ne_unknownOpcode h
    · exact takeSrc_ne_unknownOpcode h
  case h_8 | h_9 | h_17 => -- F2vv
    obtain h | ⟨_, _, -, h⟩ := decodeF2vv_error h
    · exact takeSrc_ne_unknownOpcode h
    · exact takeSrc_ne_unknownOpcode h
  case h_5 | h_6 | h_10 | h_11 | h_12 | h_13 | h_14 => -- F3dvv
    obtain h | ⟨_, _, -, h⟩ | ⟨_, _, _, _, -, -, h⟩ := decodeF3dvv_error h
    · exact takeDst_ne_unknownOpcode h
    · exact takeSrc_ne_unknownOpcode h
    · exact takeSrc_ne_unknownOpcode h
  case h_23 =>
    simp only [imp_false] at *
    omega

theorem decodeOpcode_unknownOpcode (hw : 22 ≤ w.toNat) : decodeOpcode w ws = .error (.unknownOpcode w) := by
  unfold decodeOpcode
  split
  case h_23 => rfl
  all_goals omega

/-- Each opcode number below 22, followed by as many references to register 0 as it has operands, is decoded with no word left. -/
theorem decode_registerOperands : ∀ n : Fin 22,
    (decode (BitVec.ofNat 16 n.val :: List.replicate (operandCount n.val) (Operand.reg 0).word)).map Prod.snd = .ok [] := by
  decide

theorem exists_decode_of_le (hw : w.toNat ≤ 21) : ∃ operandWords i, decode (w :: operandWords) = .ok (i, []) := by
  have h := decode_registerOperands ⟨w.toNat, by omega⟩
  rw [BitVec.ofNat_toNat, BitVec.setWidth_eq] at h
  cases hd : decode (w :: List.replicate (operandCount w.toNat) (Operand.reg 0).word) with
  | error e => simp [hd, Except.map] at h
  | ok p =>
    obtain ⟨i, rest⟩ := p
    obtain rfl : rest = [] := by simpa [hd, Except.map] using h
    exact ⟨_, i, hd⟩

/-- R52 in bits: `w[15:5]` zero and `w[4:0]` at most 21. -/
theorem toNat_le_21_iff_bits (w : Word) :
    w.toNat ≤ 21 ↔ w.extractLsb' 5 11 = 0 ∧ (w.extractLsb' 0 5).toNat ≤ 21 := by
  have h := w.isLt
  simp only [BitVec.toNat_eq, BitVec.extractLsb'_toNat, BitVec.ofNat_eq_ofNat, BitVec.toNat_ofNat, Nat.shiftRight_eq_div_pow]
  omega

/-- Settles O3: the number of a decoded instruction is the whole opcode word (`decodeOpcode_ok`), each number below 22 has a word list that is
decoded (`exists_decode_of_le`), and the unknown opcode is reported for the others and only for them. -/
theorem opcodeWordMatchedWhole : Obligations.OpcodeWordMatchedWhole := by
  refine fun w ws => ⟨toNat_le_21_iff_bits w, fun hw => ⟨?_, fun _ => decodeOpcode_ne_unknownOpcode hw⟩,
    fun i rest h => (decodeOpcode_ok h).1, decodeOpcode_unknownOpcode⟩
  obtain ⟨operandWords, i, h⟩ := exists_decode_of_le hw
  exact ⟨operandWords, i, h, (decodeOpcode_ok h).1⟩

end Sys2Proof
end

section
/-! PROOFS. Reset and the image load (70_reset_and_hazards.md R160, R162, R163). -/

namespace Sys2Proof.Machine

/-! ### From bytes to words -/

theorem imageOfBytes_cons_cons (low high : Byte) (rest : List Byte) :
    imageOfBytes (low :: high :: rest) = (imageOfBytes rest).map (wordOfBytes high low :: ·) := by
  rw [imageOfBytes]
  cases imageOfBytes rest <;> rfl

theorem imageOfBytes_cons_cons_some {low high : Byte} {rest : List Byte} {ws : List Word}
    (h : imageOfBytes (low :: high :: rest) = some ws) :
    ∃ tail, imageOfBytes rest = some tail ∧ wordOfBytes high low :: tail = ws :=
  Option.map_eq_some_iff.mp (imageOfBytes_cons_cons low high rest ▸ h)

/-- No stream of whole pairs is refused. -/
theorem exists_imageOfBytes_of_even : ∀ bytes : List Byte, bytes.length % 2 = 0 → ∃ ws, imageOfBytes bytes = some ws
  | [], _ => ⟨[], rfl⟩
  | [_], h => absurd h (by simp)
  | low :: high :: rest, h => by
    obtain ⟨tail, htail⟩ := exists_imageOfBytes_of_even rest ((Nat.add_mod_right rest.length 2).symm.trans h)
    exact ⟨_, by rw [imageOfBytes_cons_cons, htail, Option.map_some]⟩

theorem imageOfBytes_length : ∀ {bytes : List Byte} {ws : List Word}, imageOfBytes bytes = some ws →
    bytes.length = 2 * ws.length
  | [], _, h => by cases h; rfl
  | [_], _, h => by cases h
  | low :: high :: rest, _, h => by
    obtain ⟨tail, htail, rfl⟩ := imageOfBytes_cons_cons_some h
    have ih := imageOfBytes_length htail
    simp only [List.length_cons]
    omega

/-- Word `n` is made of the pair of bytes at `2 * n` (R163). -/
theorem imageOfBytes_getElem? : ∀ {bytes : List Byte} {ws : List Word}, imageOfBytes bytes = some ws →
    ∀ {n : Nat} {w : Word}, ws[n]? = some w →
      ∃ low high, bytes[2 * n]? = some low ∧ bytes[2 * n + 1]? = some high ∧ w = wordOfBytes high low
  | [], _, h, _, _, hw => by cases h; cases hw
  | [_], _, h, _, _, _ => by cases h
  | low :: high :: rest, _, h, n, _, hw => by
    obtain ⟨tail, htail, rfl⟩ := imageOfBytes_cons_cons_some h
    cases n with
    | zero =>
      cases hw
      exact ⟨low, high, rfl, rfl, rfl⟩
    | succ n => exact imageOfBytes_getElem? htail hw

/-- Settles O56: an even stream is accepted, and each word of the image is the pair of bytes at twice its place (`imageOfBytes_getElem?`). -/
theorem imageOfBytesPairsLittleEndian : Obligations.ImageOfBytesPairsLittleEndian := by
  intro bytes heven
  obtain ⟨ws, hws⟩ := exists_imageOfBytes_of_even bytes heven
  refine ⟨ws, hws, imageOfBytes_length hws, fun n w hw => ?_⟩
  obtain ⟨low, high, hlow, hhigh, rfl⟩ := imageOfBytes_getElem? hws hw
  exact ⟨low, high, hlow, hhigh, wordOfBytes_toNat high low⟩

/-! ### Reading after words were written -/

/-- The words below the first one written stay. -/
theorem Memory.read_writeWords_of_lt {m : Memory} (hm : m.wf) {a k : Nat} (hk : k < a) (ws : List Word) :
    (m.writeWords a ws).read k = m.read k := by
  induction ws generalizing m a with
  | nil => rfl
  | cons w ws ih =>
    rw [Memory.writeWords]
    split
    · rename_i ha
      rw [ih (Memory.wf_write hm ha w) (Nat.lt_succ_of_lt hk), Memory.read_write hm ha, if_neg (Nat.ne_of_lt hk)]
    · rfl

/-- Where all the words have cells, the cell `k` places above `a` reads as word `k`, and past the last word as before. -/
theorem Memory.read_writeWords_add {m : Memory} (hm : m.wf) {a : Nat} {ws : List Word}
    (hfit : a + ws.length ≤ Config.memWords) (k : Nat) :
    (m.writeWords a ws).read (a + k) = ws[k]?.getD (m.read (a + k)) := by
  induction ws generalizing m a k with
  | nil => rfl
  | cons w ws ih =>
    rw [List.length_cons] at hfit
    have ha : a < Config.memWords := by omega
    have hm' := Memory.wf_write hm ha w
    rw [Memory.writeWords, if_pos ha]
    cases k with
    | zero =>
      calc ((m.write a w).writeWords (a + 1) ws).read a
        _ = (m.write a w).read a := Memory.read_writeWords_of_lt hm' (Nat.lt_add_one a) ws
        _ = w := (Memory.read_write hm ha w a).trans (if_pos rfl)
    | succ k =>
      have hnext : a + (k + 1) = a + 1 + k := by omega
      rw [hnext, ih hm' (by omega), Memory.read_write hm ha, if_neg (by omega), List.getElem?_cons_succ]

/-! ### Boot -/

theorem boot_of_length_le {image : List Word} (h : image.length ≤ Config.memWords) :
    boot image = some (State.reset.placeWords image) := if_pos h

theorem reset_reg (q : RegIdx) : State.reset.reg q = 0 := Vector.getElem_replicate q.isLt

/-- After the load a cell holds the image's word, and 0 beyond the image (R160, R162). -/
theorem reset_placeWords_read {image : List Word} (h : image.length ≤ Config.memWords) (n : Nat) :
    (State.reset.placeWords image).mem.read n = image[n]?.getD 0 := by
  have hread := Memory.read_writeWords_add Memory.wf_nil (a := 0) (by rwa [Nat.zero_add]) n
  rwa [Nat.zero_add, Memory.read_nil] at hread

/-- Settles O57: the load changes memory alone (the laws of `placeWords`), and memory by `reset_placeWords_read`. -/
theorem bootPlacesImage : Obligations.BootPlacesImage := by
  intro image hfit
  refine ⟨_, boot_of_length_le hfit, reset_reg, rfl, rfl, rfl, fun n w hw => ?_, fun n hn => ?_, rfl⟩
  · rw [reset_placeWords_read hfit, hw, Option.getD_some]
  · rw [reset_placeWords_read hfit, List.getElem?_eq_none hn, Option.getD_none]

end Sys2Proof.Machine
end

section
/-! PROOFS. Encoder and decoder are inverse (30_encoding.md sections 1 to 4). -/

namespace Sys2Proof

variable {ws rest : List Word} {i : Instr}

theorem decode_encode (h : i.wellFormed = true) (rest : List Word) : decode (encode i ++ rest) = .ok (i, rest) := by
  cases i with
  | halt | ret | noop => rfl
  | push a | jmp a | call a | out a => exact decodeF1v_words _ a rest
  | pop a | inp a => exact decodeF1d_words _ h rest
  | set a b | not a b | rmem a b => exact decodeF2dv_words _ h b rest
  | jnz a b | jz a b | wmem a b => exact decodeF2vv_words _ a b rest
  | eq a b c | gt a b c | add a b c | mult a b c | mod a b c | and a b c | or a b c => exact decodeF3dvv_words _ h b c rest

/-- The words taken are the encoding: the opcode word is the number of the instruction it selects (R52). -/
theorem eq_encode_of_decode (h : decode ws = .ok (i, rest)) : ws = encode i ++ rest := by
  cases ws with
  | nil => cases h
  | cons w ws =>
    obtain ⟨hop, rfl⟩ := decodeOpcode_ok h
    simp [encode, hop]

/-- Settles O1, by the format of the instruction (`decode_encode`). -/
theorem decodeOfEncodeGivesInstruction : Obligations.DecodeOfEncodeGivesInstruction :=
  fun _ rest h => decode_encode h rest

/-- Settles O2: what is decoded is well formed, and its opcode number and operand words are the words taken. -/
theorem encodeOfDecodeGivesWords : Obligations.EncodeOfDecodeGivesWords :=
  fun _ _ _ h => ⟨decode_wellFormed h, eq_encode_of_decode h⟩

/-- Settles O5: eight closed word lists, decoded by evaluation. -/
theorem sampleWordsDecode : Obligations.SampleWordsDecode := by
  unfold Obligations.SampleWordsDecode
  decide

end Sys2Proof
end

section
/-! PROOFS. Operand words: the three classes (R53), in decimal ranges and in bits, and what taking each word answers (R74, R75). -/

namespace Sys2Proof

variable {w : Word}

/-! ### The classes -/

theorem classify_of_lt (h : w.toNat < 32768) : classify w = some (.lit (BitVec.ofNat 15 w.toNat)) := if_pos h

theorem classify_reg {r : RegIdx} (h : w.toNat = 32768 + r.val) : classify w = some (.reg r) := by
  rw [← classify_word (.reg r)]
  exact congrArg classify (BitVec.eq_of_toNat_eq (h.trans (word_reg_toNat r).symm))

theorem classify_eq_none_iff : classify w = none ↔ 32776 ≤ w.toNat := by
  simp only [classify, Config.regRefBase, Config.numRegs]
  split
  · simp only [reduceCtorEq, false_iff]; omega
  · split
    · simp only [reduceCtorEq, false_iff]; omega
    · simp only [true_iff]; omega

theorem valOfNat_toNat (h : w.toNat < 32768) : (BitVec.ofNat 15 w.toNat).toNat = w.toNat := by
  rw [BitVec.toNat_ofNat]
  exact Nat.mod_eq_of_lt h

/-! ### The same ranges in bits -/

theorem getLsbD_15 (w : Word) : w.getLsbD 15 = decide (32768 ≤ w.toNat) := by
  have h := w.isLt
  rw [BitVec.getLsbD, Nat.testBit_eq_decide_div_mod_eq, decide_eq_decide]
  omega

theorem extractLsb'_3_12_eq_zero (w : Word) : w.extractLsb' 3 12 = 0 ↔ w.toNat % 32768 < 8 := by
  simp only [BitVec.toNat_eq, BitVec.extractLsb'_toNat, BitVec.ofNat_eq_ofNat, BitVec.toNat_ofNat, Nat.shiftRight_eq_div_pow]
  omega

theorem extractLsb'_0_3_toNat (w : Word) : (w.extractLsb' 0 3).toNat = w.toNat % 8 := by
  simp [BitVec.extractLsb'_toNat]

/-- Settles O4: the classes by `classify`'s own ranges, and each clause on bits by what the bits say of the number. -/
theorem operandWordClasses : Obligations.OperandWordClasses := by
  intro w
  have hw := w.isLt
  refine ⟨fun h => ?_, fun h h' => ?_, classify_eq_none_iff.mpr, ?_, ?_, ?_, fun h h' => ?_⟩
  · have hlt : w.toNat < 32768 := by omega
    exact ⟨_, classify_of_lt hlt, valOfNat_toNat hlt⟩
  · exact ⟨⟨w.toNat - 32768, by omega⟩, classify_reg (Nat.add_sub_cancel' h).symm, rfl⟩
  · rw [getLsbD_15, decide_eq_false_iff_not]; omega
  · rw [getLsbD_15, decide_eq_true_iff, extractLsb'_3_12_eq_zero]; omega
  · rw [getLsbD_15, decide_eq_true_iff, ne_eq, extractLsb'_3_12_eq_zero]; omega
  · rw [extractLsb'_0_3_toNat]; omega

/-! ### Taking a word -/

theorem takeSrc_invalid (h : 32776 ≤ w.toNat) (ws : List Word) : takeSrc (w :: ws) = .error .invalidOperand := by
  simp only [takeSrc, classify_eq_none_iff.mpr h]

theorem takeDst_invalid (h : 32776 ≤ w.toNat) (ws : List Word) : takeDst (w :: ws) = .error .invalidOperand := by
  simp only [takeDst, classify_eq_none_iff.mpr h]

theorem takeSrc_of_classify {o : Operand} (h : classify w = some o) (ws : List Word) : takeSrc (w :: ws) = .ok (o, ws) :=
  word_of_classify h ▸ takeSrc_word o ws

theorem takeDst_of_classify {o : Operand} (h : classify w = some o) (ho : o.isDest = true) (ws : List Word) :
    takeDst (w :: ws) = .ok (o, ws) :=
  word_of_classify h ▸ takeDst_word ho ws

theorem takeDst_outOfRange (h : 8 ≤ w.toNat) (h' : w.toNat ≤ 32767) (ws : List Word) :
    takeDst (w :: ws) = .error .registerIndexOutOfRange := by
  have hlt : w.toNat < 32768 := by omega
  have hd : (Operand.lit (BitVec.ofNat 15 w.toNat)).isDest = false := by
    rw [Operand.isDest, valOfNat_toNat hlt, decide_eq_false_iff_not, Config.numRegs]
    omega
  simp only [takeDst, classify_of_lt hlt, hd, Bool.false_eq_true, if_false]

namespace Machine

theorem isDest_of_dst {a : Operand} {r : RegIdx} (h : dst a = some r) : a.isDest = true := by
  rw [← dst_isSome, h]
  rfl

theorem dst_lit_of_toNat {v : Val} {r : RegIdx} (h : v.toNat = r.val) : dst (.lit v) = some r := by
  have hlt : v.toNat < 8 := h ▸ r.isLt
  rw [dst_lit v hlt]
  exact congrArg some (Fin.ext h)

/-- Settles O6: the two faults by range, and the two spellings of a register by `classify`. -/
theorem destinationWordRanges : Obligations.DestinationWordRanges := by
  refine fun w ws => ⟨fun h => takeDst_invalid h ws, fun h h' => takeDst_outOfRange h h' ws, fun r h => ?_⟩
  have hr := r.isLt
  obtain h | h := h
  · have hlt : w.toNat < 32768 := by omega
    have hd : dst (.lit (BitVec.ofNat 15 w.toNat)) = some r := dst_lit_of_toNat ((valOfNat_toNat hlt).trans h)
    exact ⟨_, takeDst_of_classify (classify_of_lt hlt) (isDest_of_dst hd) ws, hd, by omega⟩
  · exact ⟨_, takeDst_of_classify (classify_reg h) rfl ws, rfl, by omega⟩

/-- Settles O7: the class of the word says which value it gives. -/
theorem sourceWordRanges : Obligations.SourceWordRanges := by
  refine fun w ws s => ⟨fun h => takeSrc_invalid h ws, fun h => ?_, fun r h => ?_⟩
  · have hlt : w.toNat < 32768 := by omega
    exact ⟨_, takeSrc_of_classify (classify_of_lt hlt) ws, valOfNat_toNat hlt⟩
  · exact ⟨_, takeSrc_of_classify (classify_reg h) ws, reduce_toNat _⟩

end Machine

end Sys2Proof
end

section
/-! PROOFS. The numbers that the ALU and the comparisons answer (42_compare.md, 44_arithmetic_logic.md), and the branches of the jumps. -/

namespace Sys2Proof.Machine

theorem aluAdd_toNat (b c : Val) : (aluAdd b c).toNat = (b.toNat + c.toNat) % 32768 := BitVec.toNat_ofNat _ _

theorem aluMult_toNat (b c : Val) : (aluMult b c).toNat = b.toNat * c.toNat % 32768 := BitVec.toNat_ofNat _ _

/-- A remainder of Vals is a Val: its reduction changes nothing (R113). -/
theorem remainder_toNat (b c : Val) : (BitVec.ofNat 15 (b.toNat % c.toNat)).toNat = b.toNat % c.toNat := by
  rw [BitVec.toNat_ofNat]
  exact Nat.mod_eq_of_lt (Nat.lt_of_le_of_lt (Nat.mod_le _ _) b.isLt)

theorem aluAnd_toNat (b c : Val) : (aluAnd b c).toNat = b.toNat &&& c.toNat := BitVec.toNat_and _ _

theorem aluOr_toNat (b c : Val) : (aluOr b c).toNat = b.toNat ||| c.toNat := BitVec.toNat_or _ _

theorem aluNot_toNat (b : Val) : (aluNot b).toNat = 32767 - b.toNat := BitVec.toNat_not

theorem boolVal_toNat (p : Bool) : (boolVal p).toNat = if p then 1 else 0 := by cases p <;> rfl

theorem cmpEq_toNat (b c : Val) : (cmpEq b c).toNat = if b.toNat = c.toNat then 1 else 0 := by
  simp only [cmpEq, boolVal_toNat, decide_eq_true_iff, BitVec.toNat_inj]

theorem cmpGt_toNat (b c : Val) : (cmpGt b c).toNat = if b.toNat > c.toNat then 1 else 0 := by
  simp only [cmpGt, boolVal_toNat, decide_eq_true_iff, gt_iff_lt]

theorem isZero_iff (v : Val) : isZero v = true ↔ v.toNat = 0 := by
  rw [isZero, decide_eq_true_iff, BitVec.toNat_eq]
  rfl

theorem val_eq_zero_iff (v : Val) : v = 0 ↔ v.toNat = 0 := BitVec.toNat_eq

/-! ### The conditional jumps, one equation per branch -/

section

variable {a b : Operand} {s : State}

theorem execJnz_zero (h : (src a s).toNat = 0) : execJnz a b s = .next (s.advance 3) := by
  rw [execJnz, if_pos ((isZero_iff _).mpr h)]

theorem execJnz_ne (h : (src a s).toNat ≠ 0) : execJnz a b s = .next (s.setPc (zextVal (src b s))) := by
  rw [execJnz, if_neg (mt (isZero_iff _).mp h)]

theorem execJz_zero (h : (src a s).toNat = 0) : execJz a b s = .next (s.setPc (zextVal (src b s))) := by
  rw [execJz, if_pos ((isZero_iff _).mpr h)]

theorem execJz_ne (h : (src a s).toNat ≠ 0) : execJz a b s = .next (s.advance 3) := by
  rw [execJz, if_neg (mt (isZero_iff _).mp h)]

end

end Sys2Proof.Machine
end

section
/-! PROOFS. The words a step fetches, one at a time (R70, R71). -/

namespace Sys2Proof.Machine

variable {s : State}

theorem State.advance_advance (s : State) (m n : Nat) : (s.advance m).advance n = s.advance (m + n) := by
  simp only [State.advance, BitVec.ofNat_add, BitVec.add_assoc]

theorem src_advance (o : Operand) (s : State) (n : Nat) : src o (s.advance n) = src o s := by cases o <;> rfl

/-- The next `n` words from `pc` upward, or as many as memory still has: what `n` fetches can read. -/
def State.words (s : State) (n : Nat) : List Word := s.mem.readWords n s.pc.toNat

theorem State.fetchWords_eq_words (s : State) : s.fetchWords = s.words 4 := rfl

theorem State.words_eq_nil (h : 32768 ≤ s.pc.toNat) (n : Nat) : s.words (n + 1) = [] := if_neg (Nat.not_lt.mpr h)

/-- A word inside memory is followed by the words at the next `pc`, which has not wrapped (R13). -/
theorem State.words_eq_cons (h : s.pc.toNat < 32768) (n : Nat) :
    s.words (n + 1) = s.mem.read s.pc.toNat :: (s.advance 1).words n := by
  have hpc : (s.advance 1).pc.toNat = s.pc.toNat + 1 := by
    rw [State.advance_pc, BitVec.toNat_add, BitVec.toNat_ofNat]
    omega
  rw [State.words, Memory.readWords_succ, if_pos h, State.words, hpc, State.advance_mem]

theorem State.words_length (s : State) (n : Nat) : (s.words n).length = min n (32768 - s.pc.toNat) :=
  Memory.readWords_length _ _ _

theorem State.fetchDecode_of_decode_ok {i : Instr} {rest : List Word} (h : decode s.fetchWords = .ok (i, rest)) :
    s.fetchDecode = .ok i := by
  simp only [State.fetchDecode, h]

theorem State.fetchDecode_of_decode_error {e : FaultReason} (h : decode s.fetchWords = .error e) :
    s.fetchDecode = .error e := by
  simp only [State.fetchDecode, h]

end Sys2Proof.Machine
end

section
/-! PROOFS. The spec's word-by-word pseudocode and the model's step are one machine: the words are taken in the same order by both, so each format
of the decoder is followed operand by operand, and then each instruction's meaning is compared once its operands are known. -/

namespace Sys2Proof.Pseudocode

open Sys2Proof.Machine

variable {s : State}

/-! ### Raw words against operands -/

theorem src_word (o : Operand) (s : State) : src s o.word = .ok (Machine.src o s).toNat := by
  cases o with
  | lit v =>
    have h : v.toNat ≤ 32767 := Nat.le_of_lt_succ v.isLt
    rw [src, word_lit_toNat, if_pos h]
    rfl
  | reg r =>
    have h := r.isLt
    have hr : Fin.ofNat 8 (32768 + r.val - 32768) = r := by
      rw [Nat.add_sub_cancel_left]
      exact Fin.ofNat_val_eq_self r
    rw [src, word_reg_toNat, if_neg (by omega), if_pos (by omega), hr, Machine.src_reg, reduce_toNat]

theorem src_of_classify_none {w : Word} (h : classify w = none) (s : State) : src s w = .error .invalidOperand := by
  have h := classify_eq_none_iff.mp h
  rw [src, if_neg (by omega), if_neg (by omega)]

theorem dst_word {o : Operand} {r : RegIdx} (h : Machine.dst o = some r) : dst o.word = .ok r := by
  have hr := r.isLt
  have hw : o.word.toNat ≤ 32775 ∧ o.word.toNat % 32768 = r.val := by
    cases o with
    | lit v =>
      simp only [Machine.dst, Option.dite_none_right_eq_some, Option.some.injEq] at h
      obtain ⟨hlt, rfl⟩ := h
      simp only [word_lit_toNat] at *
      omega
    | reg q =>
      obtain rfl := Option.some.inj h
      rw [word_reg_toNat]
      omega
  rw [dst, if_neg (by omega), if_neg (by omega), hw.2, Fin.ofNat_val_eq_self]

theorem dst_of_classify_none {w : Word} (h : classify w = none) : dst w = .error .invalidOperand := by
  have h := classify_eq_none_iff.mp h
  rw [dst, if_pos (by omega)]

theorem dst_word_of_not_isDest {o : Operand} (h : o.isDest = false) : dst o.word = .error .registerIndexOutOfRange := by
  cases o with
  | lit v =>
    have hv := v.isLt
    simp only [Operand.isDest, Config.numRegs, decide_eq_false_iff_not] at h
    rw [dst, word_lit_toNat, if_neg (by omega), if_pos (by omega)]
  | reg r => cases h

/-! ### One fetch against one word of the list -/

theorem fetch_cases (s : State) (n : Nat) :
    (s.words (n + 1) = [] ∧ fetch s = .error .memoryOutOfBounds) ∨
      ∃ w, s.words (n + 1) = w :: (s.advance 1).words n ∧ fetch s = .ok (w, s.advance 1) := by
  obtain h | h := Nat.lt_or_ge s.pc.toNat 32768
  · exact .inr ⟨_, State.words_eq_cons h n, if_neg (Nat.not_le.mpr h)⟩
  · exact .inl ⟨State.words_eq_nil h n, if_pos h⟩

theorem fetchSrc_of_fetch {t : State} {w : Word} (h : fetch s = .ok (w, t)) :
    fetchSrc s = (src t w).map fun v => (v, t) := by
  rw [fetchSrc, h]
  change (src t w >>= fun v => .ok (v, t)) = _
  cases src t w <;> rfl

theorem fetchDst_of_fetch {t : State} {w : Word} (h : fetch s = .ok (w, t)) : fetchDst s = (dst w).map fun r => (r, t) := by
  rw [fetchDst, h]
  change (dst w >>= fun r => .ok (r, t)) = _
  cases dst w <;> rfl

theorem fetchSrc_cases (s : State) (k n : Nat) :
    (∃ e, takeSrc ((s.advance k).words (n + 1)) = .error e ∧ fetchSrc (s.advance k) = .error e) ∨
      ∃ o, takeSrc ((s.advance k).words (n + 1)) = .ok (o, (s.advance (k + 1)).words n) ∧
        fetchSrc (s.advance k) = .ok ((Machine.src o s).toNat, s.advance (k + 1)) := by
  obtain ⟨hw, hf⟩ | ⟨w, hw, hf⟩ := fetch_cases (s.advance k) n
  · exact .inl ⟨_, by rw [hw, takeSrc_nil], by rw [fetchSrc, hf]; rfl⟩
  · rw [State.advance_advance] at hw hf
    cases hc : classify w with
    | none =>
      refine .inl ⟨.invalidOperand, by rw [hw, takeSrc, hc], ?_⟩
      rw [fetchSrc_of_fetch hf, src_of_classify_none hc]
      rfl
    | some o =>
      obtain rfl := word_of_classify hc
      refine .inr ⟨o, by rw [hw, takeSrc_word], ?_⟩
      rw [fetchSrc_of_fetch hf, src_word, src_advance]
      rfl

theorem fetchDst_cases (s : State) (k n : Nat) :
    (∃ e, takeDst ((s.advance k).words (n + 1)) = .error e ∧ fetchDst (s.advance k) = .error e) ∨
      ∃ o r, Machine.dst o = some r ∧ takeDst ((s.advance k).words (n + 1)) = .ok (o, (s.advance (k + 1)).words n) ∧
        fetchDst (s.advance k) = .ok (r, s.advance (k + 1)) := by
  obtain ⟨hw, hf⟩ | ⟨w, hw, hf⟩ := fetch_cases (s.advance k) n
  · exact .inl ⟨_, by rw [hw, takeDst_nil], by rw [fetchDst, hf]; rfl⟩
  · rw [State.advance_advance] at hw hf
    cases hc : classify w with
    | none =>
      refine .inl ⟨.invalidOperand, by rw [hw, takeDst, hc], ?_⟩
      rw [fetchDst_of_fetch hf, dst_of_classify_none hc]
      rfl
    | some o =>
      obtain rfl := word_of_classify hc
      cases hd : Machine.dst o with
      | none =>
        have ho : o.isDest = false := by rw [← dst_isSome, hd]; rfl
        refine .inl ⟨.registerIndexOutOfRange, by simp [hw, takeDst, hc, ho], ?_⟩
        rw [fetchDst_of_fetch hf, dst_word_of_not_isDest ho]
        rfl
      | some r =>
        refine .inr ⟨o, r, hd, by rw [hw, takeDst_word (isDest_of_dst hd)], ?_⟩
        rw [fetchDst_of_fetch hf, dst_word hd]
        rfl

/-! ### Format by format -/

/-- What the model's step does with the decoder's answer. -/
def runDecoded (s : State) : Except FaultReason (Instr × List Word) → Answer
  | .ok (i, _) => exec i s
  | .error e => raise e s

/-- What the pseudocode's step does with the answer of its body. -/
def answer (s : State) : Except FaultReason State → Answer
  | .ok t => .next t
  | .error e => raise e s

variable {k n : Nat} {K : Nat × State → Except FaultReason State} {D : RegIdx × State → Except FaultReason State}

theorem runDecoded_F1v {mk : Operand → Instr}
    (h : ∀ a, exec (mk a) s = answer s (K ((Machine.src a s).toNat, s.advance (k + 1)))) :
    runDecoded s (decodeF1v mk ((s.advance k).words (n + 1))) = answer s (fetchSrc (s.advance k) >>= K) := by
  obtain ⟨e, ht, hf⟩ | ⟨a, ht, hf⟩ := fetchSrc_cases s k n
  · simp only [decodeF1v, ht, hf]; rfl
  · simp only [decodeF1v, ht, hf]; exact h a

theorem runDecoded_F1d {mk : Operand → Instr}
    (h : ∀ a r, Machine.dst a = some r → exec (mk a) s = answer s (D (r, s.advance (k + 1)))) :
    runDecoded s (decodeF1d mk ((s.advance k).words (n + 1))) = answer s (fetchDst (s.advance k) >>= D) := by
  obtain ⟨e, ht, hf⟩ | ⟨a, r, hr, ht, hf⟩ := fetchDst_cases s k n
  · simp only [decodeF1d, ht, hf]; rfl
  · simp only [decodeF1d, ht, hf]; exact h a r hr

theorem runDecoded_F2dv {mk : Operand → Operand → Instr}
    (h : ∀ a r, Machine.dst a = some r →
      runDecoded s (decodeF1v (mk a) ((s.advance (k + 1)).words n)) = answer s (D (r, s.advance (k + 1)))) :
    runDecoded s (decodeF2dv mk ((s.advance k).words (n + 1))) = answer s (fetchDst (s.advance k) >>= D) := by
  obtain ⟨e, ht, hf⟩ | ⟨a, r, hr, ht, hf⟩ := fetchDst_cases s k n
  · simp only [decodeF2dv, ht, hf]; rfl
  · simp only [decodeF2dv, ht, hf]; exact h a r hr

theorem runDecoded_F2vv {mk : Operand → Operand → Instr}
    (h : ∀ a, runDecoded s (decodeF1v (mk a) ((s.advance (k + 1)).words n)) =
      answer s (K ((Machine.src a s).toNat, s.advance (k + 1)))) :
    runDecoded s (decodeF2vv mk ((s.advance k).words (n + 1))) = answer s (fetchSrc (s.advance k) >>= K) := by
  obtain ⟨e, ht, hf⟩ | ⟨a, ht, hf⟩ := fetchSrc_cases s k n
  · simp only [decodeF2vv, ht, hf]; rfl
  · simp only [decodeF2vv, ht, hf]; exact h a

theorem runDecoded_F3dvv {mk : Operand → Operand → Operand → Instr} {f : Nat → Nat → Except FaultReason Nat}
    (h : ∀ a r b c, Machine.dst a = some r → exec (mk a b c) s =
      answer s (f (Machine.src b s).toNat (Machine.src c s).toNat >>= fun v => .ok ((s.advance 4).setReg r (word v)))) :
    runDecoded s (decodeF3dvv mk ((s.advance 1).words 3)) = answer s (threeOperand f (s.advance 1)) := by
  obtain ⟨e, ht, hf⟩ | ⟨a, r, hr, ht, hf⟩ := fetchDst_cases s 1 2
  · simp only [decodeF3dvv, threeOperand, ht, hf]; rfl
  · simp only [decodeF3dvv, threeOperand, ht, hf]
    exact runDecoded_F2vv fun b => runDecoded_F1v fun c => h a r b c hr

/-! ### Meaning by meaning -/

theorem word_eq_zextVal {v : Val} {m : Nat} (h : v.toNat = m) : word m = zextVal v := by
  subst h
  apply BitVec.eq_of_toNat_eq
  rw [zextVal_toNat, word, BitVec.toNat_ofNat]
  exact Nat.mod_eq_of_lt (Nat.lt_trans v.isLt (by decide))

theorem word_toNat (v : Val) : word v.toNat = zextVal v := word_eq_zextVal rfl

theorem word_byte_toNat (ch : Byte) : word ch.toNat = zextByte ch := by
  apply BitVec.eq_of_toNat_eq
  rw [zextByte_toNat, word, BitVec.toNat_ofNat]
  exact Nat.mod_eq_of_lt (Nat.lt_trans ch.isLt (by decide))

theorem ofNat_mod_256 (v : Val) : BitVec.ofNat 8 (v.toNat % 256) = v.setWidth 8 := by
  apply BitVec.eq_of_toNat_eq
  rw [BitVec.toNat_ofNat, BitVec.toNat_setWidth, Nat.mod_mod]

theorem writeDst_eq_answer {a : Operand} {r : RegIdx} (ha : Machine.dst a = some r) {v : Val} {m : Nat} (h : v.toNat = m)
    (l : Nat) : writeDst a l (zextVal v) s = answer s (.ok ((s.advance l).setReg r (word m))) := by
  rw [writeDst_some ha, word_eq_zextVal h]
  rfl

theorem ok_bind {α β : Type} (x : α) (f : α → Except FaultReason β) : (Except.ok x >>= f) = f x := rfl

/-- The two steps agree on a running machine, by the opcode word. -/
theorem runDecoded_fetchWords (s : State) : runDecoded s (decode s.fetchWords) = answer s (body s) := by
  rw [State.fetchWords_eq_words, body]
  obtain ⟨hw, hf⟩ | ⟨w, hw, hf⟩ := fetch_cases s 3
  · rw [hw, hf]; rfl
  rw [hw, hf]
  simp only [decode, decodeOpcode, ok_bind]
  generalize w.toNat = n
  match n with
  | 0 => rfl -- HALT
  | 1 => -- SET
    refine runDecoded_F2dv fun a r ha => runDecoded_F1v fun b => ?_
    exact writeDst_eq_answer ha rfl 3
  | 2 => -- PUSH
    refine runDecoded_F1v fun a => ?_
    rw [word_toNat]; rfl
  | 3 => -- POP
    refine runDecoded_F1d fun a r ha => ?_
    simp only [State.advance_stack]
    split
    · exact execPop_nil ha ‹_›
    · exact execPop_cons ha ‹_›
  | 4 => -- EQ
    exact runDecoded_F3dvv fun a r b c ha => writeDst_eq_answer ha (cmpEq_toNat _ _) 4
  | 5 => -- GT
    exact runDecoded_F3dvv fun a r b c ha => writeDst_eq_answer ha (cmpGt_toNat _ _) 4
  | 6 => -- JMP
    refine runDecoded_F1v fun a => ?_
    rw [word_toNat]; rfl
  | 7 => -- JNZ
    refine runDecoded_F2vv fun a => runDecoded_F1v fun b => ?_
    rw [word_toNat]
    split
    · exact execJnz_ne ‹_›
    · exact execJnz_zero (not_not.mp ‹_›)
  | 8 => -- JZ
    refine runDecoded_F2vv fun a => runDecoded_F1v fun b => ?_
    rw [word_toNat]
    split
    · exact execJz_zero ‹_›
    · exact execJz_ne ‹_›
  | 9 => -- ADD
    exact runDecoded_F3dvv fun a r b c ha => writeDst_eq_answer ha (aluAdd_toNat _ _) 4
  | 10 => -- MULT
    exact runDecoded_F3dvv fun a r b c ha => writeDst_eq_answer ha (aluMult_toNat _ _) 4
  | 11 => -- MOD
    refine runDecoded_F3dvv fun a r b c ha => ?_
    split
    · exact execMod_zero ha ((val_eq_zero_iff _).mpr ‹_›)
    · rw [ok_bind, word_eq_zextVal (remainder_toNat _ _)]
      exact execMod_ne ha (mt (val_eq_zero_iff _).mp ‹_›)
  | 12 => -- AND
    exact runDecoded_F3dvv fun a r b c ha => writeDst_eq_answer ha (aluAnd_toNat _ _) 4
  | 13 => -- OR
    exact runDecoded_F3dvv fun a r b c ha => writeDst_eq_answer ha (aluOr_toNat _ _) 4
  | 14 => -- NOT
    refine runDecoded_F2dv fun a r ha => runDecoded_F1v fun b => ?_
    exact writeDst_eq_answer ha (aluNot_toNat _) 3
  | 15 => -- RMEM
    refine runDecoded_F2dv fun a r ha => runDecoded_F1v fun b => ?_
    exact writeDst_some ha 3 _ s
  | 16 => -- WMEM
    refine runDecoded_F2vv fun a => runDecoded_F1v fun b => ?_
    rw [word_toNat]; rfl
  | 17 => -- CALL
    refine runDecoded_F1v fun a => ?_
    rw [word_toNat]; rfl
  | 18 => -- RET
    simp only [State.advance_stack]
    split
    · exact execRet_nil ‹_›
    · exact execRet_cons ‹_›
  | 19 => -- OUT
    refine runDecoded_F1v fun a => ?_
    rw [ofNat_mod_256]; rfl
  | 20 => -- IN
    refine runDecoded_F1d fun a r ha => ?_
    simp only [State.advance_input, word_byte_toNat]
    split
    · exact execIn_nil ha ‹_›
    · exact execIn_cons ha ‹_›
  | 21 => rfl -- NOOP
  | n + 22 => rfl -- an unknown opcode

theorem step_eq_runDecoded (h : s.run = .running) : Machine.step s = runDecoded s (decode s.fetchWords) := by
  cases hd : decode s.fetchWords with
  | ok p => exact step_running_ok h (State.fetchDecode_of_decode_ok hd)
  | error e => exact step_running_error h (State.fetchDecode_of_decode_error hd)

theorem step_eq_answer (h : s.run = .running) : step s = answer s (body s) := by
  rw [step, if_pos h]
  cases body s <;> rfl

/-- Settles O11: both steps leave a stopped machine alone, and on a running one they are the same answer (`runDecoded_fetchWords`). -/
theorem stepFollowsPseudocode : Obligations.StepFollowsPseudocode := by
  intro s
  by_cases h : s.run = .running
  · rw [step_eq_runDecoded h, step_eq_answer h, runDecoded_fetchWords]
  · rw [step, if_neg h]
    obtain ⟨hrun, -⟩ | ⟨hrun, -⟩ | ⟨-, e⟩ := step_cases s
    · exact absurd hrun h
    · exact absurd hrun h
    · exact e

end Sys2Proof.Pseudocode
end

section
/-! PROOFS. What an instruction and a step can do, said once; the invariants of the whole machine are read off it. -/

namespace Sys2Proof.Machine

/-- The instructions that may put a source's value in `pc`: JMP, JNZ and JZ (R105 to R107). -/
def jumps : Instr → Bool
  | .jmp _ | .jnz _ _ | .jz _ _ => true
  | _ => false

/-- `Effect s i t`: `t` is a state that executing `i` in `s` may leave. Which Val a register or `pc` receives is left to the statements about the
single instructions. -/
inductive Effect (s : State) : Instr → State → Prop
  | faultDst {i : Instr} {a : Operand} (hi : i.destOperand = some a) (ha : dst a = none) :
      Effect s i (s.faulted .registerIndexOutOfRange)
  | faultDiv {a b c : Operand} (hc : src c s = 0) : Effect s (.mod a b c) (s.faulted .divideByZero)
  | write {i : Instr} {a : Operand} {r : RegIdx} (hi : i.destOperand = some a) (ha : dst a = some r) (v : Val) :
      Effect s i ((s.advance i.numWords).setReg r (zextVal v))
  | load {a b : Operand} {r : RegIdx} (ha : dst a = some r) :
      Effect s (.rmem a b) ((s.advance 3).setReg r (s.memRead (src b s)))
  | store {a b : Operand} : Effect s (.wmem a b) ((s.advance 3).memWrite (src a s) (zextVal (src b s)))
  | push {a : Operand} : Effect s (.push a) ((s.advance 2).push (zextVal (src a s)))
  | pop {a : Operand} {r : RegIdx} {v : Word} {rest : List Word} (ha : dst a = some r) (hs : s.stack = v :: rest) :
      Effect s (.pop a) ((State.advance { s with stack := rest } 2).setReg r v)
  | popEmpty {a : Operand} (hs : s.stack = []) : Effect s (.pop a) ((s.advance 2).halt .stackUnderflow)
  | call {a : Operand} : Effect s (.call a) ((s.push (s.advance 2).pc).setPc (zextVal (src a s)))
  | ret {v : Word} {rest : List Word} (hs : s.stack = v :: rest) :
      Effect s .ret (State.setPc { s with stack := rest } v)
  | retEmpty (hs : s.stack = []) : Effect s .ret ((s.advance 1).halt .stackUnderflow)
  | halt : Effect s .halt ((s.advance 1).halt .haltInstruction)
  | jump {i : Instr} (hi : jumps i = true) (v : Val) : Effect s i (s.setPc (zextVal v))
  | skip {i : Instr} (hi : jumps i = true ∨ i = .noop) : Effect s i (s.advance i.numWords)
  | emit {a : Operand} : Effect s (.out a) ((s.advance 2).emit ((src a s).setWidth 8))
  | wait {a : Operand} (hs : s.input = []) : Effect s (.inp a) s
  | take {a : Operand} {r : RegIdx} {ch : Byte} {rest : List Byte} (ha : dst a = some r) (hs : s.input = ch :: rest) :
      Effect s (.inp a) ((State.advance { s with input := rest } 2).setReg r (zextByte ch))

variable {s t : State} {i : Instr}

/-! ### Every instruction and every step has one of these effects -/

theorem effect_of_writeDst {a : Operand} {v : Val} (hi : i.destOperand = some a)
    (h : exec i s = writeDst a i.numWords (zextVal v) s) : ∃ t, exec i s = .next t ∧ Effect s i t := by
  obtain ⟨r, ha, e⟩ | ⟨ha, e⟩ := writeDst_cases a i.numWords (zextVal v) s
  · exact ⟨_, h.trans e, .write hi ha v⟩
  · exact ⟨_, h.trans e, .faultDst hi ha⟩

/-- No instruction is refused, and what it answers is one of the effects. -/
theorem exec_effect (i : Instr) (s : State) : ∃ t, exec i s = .next t ∧ Effect s i t := by
  cases i with
  | set a b | eq a b c | gt a b c | add a b c | mult a b c | and a b c | or a b c | not a b =>
    exact effect_of_writeDst rfl rfl
  | halt => exact ⟨_, rfl, .halt⟩
  | push a => exact ⟨_, rfl, .push⟩
  | pop a =>
    obtain ⟨ha, e⟩ | ⟨hs, e⟩ | ⟨r, v, rest, ha, hs, e⟩ := execPop_cases a s
    · exact ⟨_, e, .faultDst rfl ha⟩
    · exact ⟨_, e, .popEmpty hs⟩
    · exact ⟨_, e, .pop ha hs⟩
  | jmp a => exact ⟨_, rfl, .jump rfl _⟩
  | jnz a b =>
    by_cases h : (src a s).toNat = 0
    · exact ⟨_, execJnz_zero h, .skip (.inl rfl)⟩
    · exact ⟨_, execJnz_ne h, .jump rfl _⟩
  | jz a b =>
    by_cases h : (src a s).toNat = 0
    · exact ⟨_, execJz_zero h, .jump rfl _⟩
    · exact ⟨_, execJz_ne h, .skip (.inl rfl)⟩
  | mod a b c =>
    obtain ⟨ha, e⟩ | ⟨hc, e⟩ | ⟨r, ha, -, e⟩ := execMod_cases a b c s
    · exact ⟨_, e, .faultDst rfl ha⟩
    · exact ⟨_, e, .faultDiv hc⟩
    · exact ⟨_, e, .write rfl ha _⟩
  | rmem a b =>
    obtain ⟨r, ha, e⟩ | ⟨ha, e⟩ := writeDst_cases a 3 (s.memRead (src b s)) s
    · exact ⟨_, e, .load ha⟩
    · exact ⟨_, e, .faultDst rfl ha⟩
  | wmem a b => exact ⟨_, rfl, .store⟩
  | call a => exact ⟨_, rfl, .call⟩
  | ret =>
    obtain ⟨hs, e⟩ | ⟨v, rest, hs, e⟩ := execRet_cases s
    · exact ⟨_, e, .retEmpty hs⟩
    · exact ⟨_, e, .ret hs⟩
  | out a => exact ⟨_, rfl, .emit⟩
  | inp a =>
    obtain ⟨ha, e⟩ | ⟨hs, e⟩ | ⟨r, ch, rest, ha, hs, e⟩ := execIn_cases a s
    · exact ⟨_, e, .faultDst rfl ha⟩
    · exact ⟨_, e, .wait hs⟩
    · exact ⟨_, e, .take ha hs⟩
  | noop => exact ⟨_, rfl, .skip (.inr rfl)⟩

theorem effect_of_exec (h : exec i s = .next t) : Effect s i t := by
  obtain ⟨u, e, he⟩ := exec_effect i s
  cases e.symm.trans h
  exact he

/-- Everything a step can lead to. -/
theorem step_next_cases (h : step s = .next t) :
    (s.run = .running ∧ ∃ i, s.fetchDecode = .ok i ∧ Effect s i t) ∨
      (s.run = .running ∧ ∃ e, s.fetchDecode = .error e ∧ t = s.faulted e) ∨
      (s.run ≠ .running ∧ t = s) := by
  obtain ⟨hrun, i, hd, e⟩ | ⟨hrun, r, hd, e⟩ | ⟨hrun, e⟩ := step_cases s
  · exact .inl ⟨hrun, i, hd, effect_of_exec (e.symm.trans h)⟩
  · cases e.symm.trans h
    exact .inr (.inl ⟨hrun, r, hd, rfl⟩)
  · cases e.symm.trans h
    exact .inr (.inr ⟨hrun, rfl⟩)

/-- Settles O18: an instruction answers one of its effects, a fault and a stopped machine their state. -/
theorem everyStepAnswersNext : Obligations.EveryStepAnswersNext := by
  intro s
  obtain ⟨-, i, -, e⟩ | ⟨-, r, -, e⟩ | ⟨-, e⟩ := step_cases s
  · obtain ⟨t, ht, -⟩ := exec_effect i s
    exact ⟨t, e.trans ht⟩
  · exact ⟨_, e⟩
  · exact ⟨_, e⟩

/-- Settles O19, by the third case of `step_cases`. -/
theorem stoppedMachineStays : Obligations.StoppedMachineStays := by
  intro s h
  obtain ⟨hrun, -⟩ | ⟨hrun, -⟩ | ⟨-, e⟩ := step_cases s
  · exact absurd hrun h
  · exact absurd hrun h
  · exact e

end Sys2Proof.Machine
end

section
/-! PROOFS. The invariant (R16): each effect keeps canonical memory, bounded stack cells and a bounded `pc`; so do reset, boot and every run. -/

namespace Sys2Proof.Machine

variable {s t : State} {i : Instr}

/-! ### The instruction fetched lies inside memory -/

theorem pc_add_numWords_le (h : s.fetchDecode = .ok i) : s.pc.toNat + i.numWords ≤ 32768 := by
  obtain ⟨rest, hd⟩ := fetchDecode_decode h
  have hlen := (decode_ok_length hd).symm.trans (s.words_length 4)
  have hpos : 1 ≤ i.numWords := Nat.le_add_right 1 _
  omega

theorem pc_add_toNat {n : Nat} (h : s.pc.toNat + n ≤ 32768) : (s.pc + BitVec.ofNat 16 n).toNat = s.pc.toNat + n := by
  rw [BitVec.toNat_add, BitVec.toNat_ofNat]
  omega

/-! ### Each part of the invariant, kept by each effect -/

theorem zextVal_lt (v : Val) : (zextVal v).toNat < 32768 := by
  rw [zextVal_toNat]
  exact v.isLt

theorem faulted_not_safe (s : State) (e : FaultReason) : ¬ (s.faulted e).Safe := fun h => h e s.pc rfl

theorem bounded_cons {v : Word} {rest : List Word} (hs : s.stack = v :: rest) (h : ∀ v ∈ s.stack, v.toNat ≤ 32768) :
    v.toNat ≤ 32768 ∧ ∀ v ∈ rest, v.toNat ≤ 32768 := by
  rw [hs] at h
  exact List.forall_mem_cons.mp h

theorem Effect.wf_mem (he : Effect s i t) (h : s.mem.wf) : t.mem.wf := by
  cases he with
  | store => exact State.wf_memWrite (s := s.advance 3) h _ _
  | _ => exact h

theorem Effect.stack_le (he : Effect s i t) (hfit : s.pc.toNat + i.numWords ≤ 32768)
    (h : ∀ v ∈ s.stack, v.toNat ≤ 32768) : ∀ v ∈ t.stack, v.toNat ≤ 32768 := by
  cases he with
  | push => exact List.forall_mem_cons.mpr ⟨Nat.le_of_lt (zextVal_lt _), h⟩
  | call => exact List.forall_mem_cons.mpr ⟨(pc_add_toNat hfit).trans_le hfit, h⟩
  | pop _ hs | ret hs => exact (bounded_cons hs h).2
  | _ => exact h

theorem Effect.pc_le (he : Effect s i t) (hfit : s.pc.toNat + i.numWords ≤ 32768) (h : ∀ v ∈ s.stack, v.toNat ≤ 32768)
    (hsafe : t.Safe) : t.pc.toNat ≤ 32768 := by
  cases he with
  | faultDst | faultDiv => exact absurd hsafe (faulted_not_safe s _)
  | jump | call => exact Nat.le_of_lt (zextVal_lt _)
  | ret hs => exact (bounded_cons hs h).1
  | wait => exact Nat.le_of_add_right_le hfit
  | _ => exact (pc_add_toNat hfit).trans_le hfit

theorem Effect.inv (he : Effect s i t) (hfit : s.pc.toNat + i.numWords ≤ 32768) (h : s.Inv) : t.Inv :=
  ⟨he.wf_mem h.memory, he.stack_le hfit h.stack, he.pc_le hfit h.stack⟩

theorem faulted_inv (h : s.Inv) (e : FaultReason) : (s.faulted e).Inv :=
  ⟨h.memory, h.stack, fun hsafe => absurd hsafe (faulted_not_safe s e)⟩

theorem step_inv (h : s.Inv) (ht : step s = .next t) : t.Inv := by
  obtain ⟨-, i, hd, he⟩ | ⟨-, e, -, rfl⟩ | ⟨-, rfl⟩ := step_next_cases ht
  · exact he.inv (pc_add_numWords_le hd) h
  · exact faulted_inv h e
  · exact h

/-- Settles O49, by the effects of the instructions: the words of one that is executed lie inside memory, so `pc` past them is at most 32768. -/
theorem stepKeepsInvariant : Obligations.StepKeepsInvariant := fun _ _ h ht => step_inv h ht

/-! ### Reset, boot and the runs -/

theorem reset_inv : State.reset.Inv := ⟨Memory.wf_nil, List.forall_mem_nil _, fun _ => Nat.zero_le _⟩

theorem boot_some {image : List Word} (h : boot image = some s) :
    s = { State.reset with mem := Memory.writeWords [] 0 image } := by
  unfold boot loadImage at h
  split at h
  · exact (Option.some.inj h).symm
  · cases h

theorem boot_inv {image : List Word} (h : boot image = some s) : s.Inv := by
  cases boot_some h
  exact ⟨Memory.wf_writeWords Memory.wf_nil 0 image, reset_inv.stack, reset_inv.pc⟩

theorem reachable_inv (h : Reachable s) : s.Inv := by
  induction h with
  | boot h => exact boot_inv h
  | step _ ht ih => exact step_inv ih ht
  | input bytes _ ih => exact ⟨ih.memory, ih.stack, ih.pc⟩

/-- Settles O50: reset has an empty memory and stack, and `pc` 0. -/
theorem resetHasInvariant : Obligations.ResetHasInvariant := reset_inv

/-- Settles O51: the load keeps canonical memory, and is the only change to the state after reset. -/
theorem bootHasInvariant : Obligations.BootHasInvariant := fun _ _ h => boot_inv h

/-- Settles O52, by the invariant, which boot has and every step and every supply of input keeps. -/
theorem reachableStatesAreBounded : Obligations.ReachableStatesAreBounded :=
  fun _ h => ⟨(reachable_inv h).stack, (reachable_inv h).pc⟩

/-- Settles O58: the loader's own bound. -/
theorem oversizedImageRefused : Obligations.OversizedImageRefused := fun _ h => if_neg (Nat.not_le.mpr h)

/-- Settles O59, field by field. -/
theorem resetZeroesEverything : Obligations.ResetZeroesEverything :=
  ⟨reset_reg, rfl, rfl, rfl, Memory.read_nil, rfl, rfl⟩

end Sys2Proof.Machine
end

section
/-! PROOFS. Bit 15 of a register is invisible (decision D2): states that agree below it resolve every source to the same Val, so every operation
of a meaning keeps the agreement. -/

namespace Sys2Proof.Machine

variable {s t : State}

/-! ### The operations of a state -/

/-- Operations that do the same to both states and neither read nor write a register keep the agreement. -/
theorem AgreeBelowBit15.map {f : State → State} (h : AgreeBelowBit15 s t) (hregs : ∀ s, (f s).regs = s.regs)
    (hcomm : ∀ s ρ, f { s with regs := ρ } = { f s with regs := ρ }) : AgreeBelowBit15 (f s) (f t) := by
  have hs : s = { t with regs := s.regs } := by
    rw [← h.pc, ← h.stack, ← h.mem, ← h.run, ← h.output, ← h.input, ← h.freeIndex]
  have hfs : f s = { f t with regs := s.regs } := (congrArg f hs).trans (hcomm t s.regs)
  have hreg : ∀ u q, (f u).reg q = u.reg q := fun u q => by simp only [State.reg, hregs]
  refine ⟨fun q => ?_, ?_, ?_, ?_, ?_, ?_, ?_, ?_⟩
  · rw [hreg, hreg]; exact h.regs q
  all_goals rw [hfs]

theorem AgreeBelowBit15.advance (h : AgreeBelowBit15 s t) (n : Nat) : AgreeBelowBit15 (s.advance n) (t.advance n) :=
  h.map (f := (·.advance n)) (fun _ => rfl) fun _ _ => rfl

theorem AgreeBelowBit15.setPc (h : AgreeBelowBit15 s t) (v : Word) : AgreeBelowBit15 (s.setPc v) (t.setPc v) :=
  h.map (f := (·.setPc v)) (fun _ => rfl) fun _ _ => rfl

theorem AgreeBelowBit15.push (h : AgreeBelowBit15 s t) (v : Word) : AgreeBelowBit15 (s.push v) (t.push v) :=
  h.map (f := (·.push v)) (fun _ => rfl) fun _ _ => rfl

theorem AgreeBelowBit15.memWrite (h : AgreeBelowBit15 s t) (a : Val) (v : Word) :
    AgreeBelowBit15 (s.memWrite a v) (t.memWrite a v) :=
  h.map (f := (·.memWrite a v)) (fun _ => rfl) fun _ _ => rfl

theorem AgreeBelowBit15.emit (h : AgreeBelowBit15 s t) (b : Byte) : AgreeBelowBit15 (s.emit b) (t.emit b) :=
  h.map (f := (·.emit b)) (fun _ => rfl) fun _ _ => rfl

theorem AgreeBelowBit15.halt (h : AgreeBelowBit15 s t) (c : HaltCause) : AgreeBelowBit15 (s.halt c) (t.halt c) :=
  h.map (f := (·.halt c)) (fun _ => rfl) fun _ _ => rfl

theorem AgreeBelowBit15.faulted (h : AgreeBelowBit15 s t) (e : FaultReason) : AgreeBelowBit15 (s.faulted e) (t.faulted e) :=
  h.map (f := (·.faulted e)) (fun _ => rfl) fun _ _ => rfl

theorem AgreeBelowBit15.withStack (h : AgreeBelowBit15 s t) (stack : List Word) :
    AgreeBelowBit15 { s with stack := stack } { t with stack := stack } :=
  h.map (f := fun s => { s with stack := stack }) (fun _ => rfl) fun _ _ => rfl

theorem AgreeBelowBit15.withInput (h : AgreeBelowBit15 s t) (input : List Byte) :
    AgreeBelowBit15 { s with input := input } { t with input := input } :=
  h.map (f := fun s => { s with input := input }) (fun _ => rfl) fun _ _ => rfl

theorem AgreeBelowBit15.setReg (h : AgreeBelowBit15 s t) (r : RegIdx) (v : Word) :
    AgreeBelowBit15 (s.setReg r v) (t.setReg r v) := by
  obtain ⟨hregs, hpc, hstack, hmem, hrun, houtput, hinput, hfree⟩ := h
  refine ⟨fun q => ?_, hpc, hstack, hmem, hrun, houtput, hinput, hfree⟩
  rw [State.reg_setReg, State.reg_setReg]
  split
  · rfl
  · exact hregs q

theorem AgreeBelowBit15.src_eq (h : AgreeBelowBit15 s t) (o : Operand) : src o s = src o t := by
  cases o with
  | lit v => rfl
  | reg r =>
    apply BitVec.eq_of_toNat_eq
    rw [src_reg, src_reg, reduce_toNat, reduce_toNat]
    exact h.regs r

theorem AgreeBelowBit15.fetchDecode_eq (h : AgreeBelowBit15 s t) : s.fetchDecode = t.fetchDecode := by
  rw [State.fetchDecode, State.fetchDecode, State.fetchWords, State.fetchWords, h.mem, h.pc]

/-! ### The answers -/

/-- Both answers are next states, and these agree below bit 15. -/
def AnswersAgree (x y : Answer) : Prop := ∃ s t, x = .next s ∧ y = .next t ∧ AgreeBelowBit15 s t

theorem AgreeBelowBit15.answers (h : AgreeBelowBit15 s t) : AnswersAgree (.next s) (.next t) := ⟨s, t, rfl, rfl, h⟩

theorem AgreeBelowBit15.withDst (h : AgreeBelowBit15 s t) {a : Operand} {k l : RegIdx → Answer}
    (hkl : ∀ r, AnswersAgree (k r) (l r)) : AnswersAgree (withDst a s k) (withDst a t l) := by
  cases ha : dst a with
  | none =>
    rw [withDst_none ha, withDst_none ha]
    exact (h.faulted _).answers
  | some r =>
    rw [withDst_some ha, withDst_some ha]
    exact hkl r

theorem AgreeBelowBit15.writeDst (h : AgreeBelowBit15 s t) (a : Operand) (n : Nat) (v : Word) :
    AnswersAgree (writeDst a n v s) (writeDst a n v t) :=
  h.withDst fun r => ((h.advance n).setReg r v).answers

theorem AgreeBelowBit15.execPop (h : AgreeBelowBit15 s t) (a : Operand) : AnswersAgree (execPop a s) (execPop a t) := by
  refine h.withDst fun r => ?_
  cases hs : s.stack with
  | nil =>
    rw [s.popTop_nil hs, t.popTop_nil (h.stack ▸ hs)]
    exact ((h.advance 2).halt _).answers
  | cons v rest =>
    rw [s.popTop_cons hs, t.popTop_cons (h.stack ▸ hs)]
    exact (((h.withStack rest).advance 2).setReg r v).answers

theorem AgreeBelowBit15.execRet (h : AgreeBelowBit15 s t) : AnswersAgree (execRet s) (execRet t) := by
  cases hs : s.stack with
  | nil =>
    rw [execRet_nil hs, execRet_nil (h.stack ▸ hs)]
    exact ((h.advance 1).halt _).answers
  | cons v rest =>
    rw [execRet_cons hs, execRet_cons (h.stack ▸ hs)]
    exact ((h.withStack rest).setPc v).answers

theorem AgreeBelowBit15.execIn (h : AgreeBelowBit15 s t) (a : Operand) : AnswersAgree (execIn a s) (execIn a t) := by
  refine h.withDst fun r => ?_
  cases hs : s.input with
  | nil =>
    rw [s.nextInput_nil hs, t.nextInput_nil (h.input ▸ hs)]
    exact h.answers
  | cons ch rest =>
    rw [s.nextInput_cons hs, t.nextInput_cons (h.input ▸ hs)]
    exact (((h.withInput rest).advance 2).setReg r (zextByte ch)).answers

theorem AgreeBelowBit15.execMod (h : AgreeBelowBit15 s t) (a b c : Operand) :
    AnswersAgree (execMod a b c s) (execMod a b c t) := by
  refine h.withDst fun r => ?_
  rw [h.src_eq b, h.src_eq c]
  cases aluMod (src b t) (src c t) with
  | none => exact (h.faulted _).answers
  | some v => exact ((h.advance 4).setReg r (zextVal v)).answers

theorem AgreeBelowBit15.ite {u v : State} (p : Prop) [Decidable p] (h : AgreeBelowBit15 s t) (h' : AgreeBelowBit15 u v) :
    AgreeBelowBit15 (if p then s else u) (if p then t else v) := by
  split
  · exact h
  · exact h'

theorem AgreeBelowBit15.exec (h : AgreeBelowBit15 s t) (i : Instr) : AnswersAgree (exec i s) (exec i t) := by
  cases i with
  | set | eq | gt | add | mult | and | or | not =>
    simp only [Machine.exec, execSet, execEq, execGt, execAdd, execMult, execAnd, execOr, execNot, h.src_eq]
    exact h.writeDst _ _ _
  | rmem a b =>
    simp only [Machine.exec, execRmem, State.memRead, h.src_eq, h.mem]
    exact h.writeDst _ _ _
  | mod a b c => exact h.execMod a b c
  | pop a => exact h.execPop a
  | ret => exact h.execRet
  | inp a => exact h.execIn a
  | jnz =>
    simp only [Machine.exec, execJnz, h.src_eq]
    exact (AgreeBelowBit15.ite _ (h.advance 3) (h.setPc _)).answers
  | jz =>
    simp only [Machine.exec, execJz, h.src_eq]
    exact (AgreeBelowBit15.ite _ (h.setPc _) (h.advance 3)).answers
  | halt => exact ((h.advance 1).halt _).answers
  | push =>
    simp only [Machine.exec, execPush, h.src_eq]
    exact ((h.advance 2).push _).answers
  | jmp =>
    simp only [Machine.exec, execJmp, h.src_eq]
    exact (h.setPc _).answers
  | wmem =>
    simp only [Machine.exec, execWmem, h.src_eq]
    exact ((h.advance 3).memWrite _ _).answers
  | call =>
    simp only [Machine.exec, execCall, State.advance_pc, h.pc, h.src_eq]
    exact ((h.push _).setPc _).answers
  | out =>
    simp only [Machine.exec, execOut, h.src_eq]
    exact ((h.advance 2).emit _).answers
  | noop => exact (h.advance 1).answers

theorem AgreeBelowBit15.step (h : AgreeBelowBit15 s t) : AnswersAgree (step s) (step t) := by
  obtain ⟨hrun, i, hd, e⟩ | ⟨hrun, r, hd, e⟩ | ⟨hrun, e⟩ := step_cases s
  · rw [e, step_running_ok (h.run ▸ hrun) (h.fetchDecode_eq ▸ hd)]
    exact h.exec i
  · rw [e, step_running_error (h.run ▸ hrun) (h.fetchDecode_eq ▸ hd)]
    exact (h.faulted r).answers
  · rw [e, stoppedMachineStays t (h.run ▸ hrun)]
    exact h.answers

/-- Settles O53: both states fetch the same instruction, and its meaning sees no register but through `src` (`AgreeBelowBit15.src_eq`). -/
theorem registerBit15IsInvisible : Obligations.RegisterBit15IsInvisible := fun _ _ h => h.step

end Sys2Proof.Machine
end

section
/-! PROOFS. What a step may change: memory, a register, the stack (10_state.md sections 1, 3 and 5, 20_memory.md section 4). -/

namespace Sys2Proof.Machine

variable {s t : State} {i : Instr}

/-! ### Memory -/

theorem Effect.mem_eq (he : Effect s i t) (hi : ∀ a b, i ≠ .wmem a b) : t.mem = s.mem := by
  cases he with
  | store => exact absurd rfl (hi _ _)
  | _ => rfl

/-- Settles O41: of the effects only `Effect.store` changes memory. -/
theorem onlyWmemChangesMemory : Obligations.OnlyWmemChangesMemory := by
  intro s t ht hw
  obtain ⟨-, i, hd, he⟩ | ⟨-, e, -, rfl⟩ | ⟨-, rfl⟩ := step_next_cases ht
  · exact he.mem_eq fun a b hi => hw a b (hi ▸ hd)
  · rfl
  · rfl

theorem Effect.read_eq_of_high (he : Effect s i t) (hm : s.mem.wf) {a : Nat} (h : 32768 ≤ (t.mem.read a).toNat) :
    t.mem.read a = s.mem.read a := by
  cases he with
  | store =>
    rw [State.memWrite_mem, State.advance_mem, Memory.read_write hm (val_lt_memWords _)] at h ⊢
    split at h
    · exact absurd h (Nat.not_le.mpr (zextVal_lt _))
    · rw [if_neg ‹_›]
  | _ => rfl

/-- Settles O45: what WMEM stores is a Val, so a word with bit 15 set stands in a cell it did not write. -/
theorem storedWordsAreVals : Obligations.StoredWordsAreVals := by
  intro s t a hm ht h
  obtain ⟨-, i, -, he⟩ | ⟨-, e, -, rfl⟩ | ⟨-, rfl⟩ := step_next_cases ht
  · exact he.read_eq_of_high hm h
  · rfl
  · rfl

/-! ### Registers -/

theorem State.reg_setReg_cases (s : State) (r q : RegIdx) (v : Word) :
    (s.setReg r v).reg q = s.reg q ∨ r = q ∧ (s.setReg r v).reg q = v := by
  rw [State.reg_setReg]
  split
  · exact .inr ⟨Eq.symm ‹_›, rfl⟩
  · exact .inl rfl

/-- A register keeps its word, or it is the destination; only RMEM and POP can give it a word that is not a Val. -/
theorem Effect.reg_cases (he : Effect s i t) (q : RegIdx) :
    t.reg q = s.reg q ∨ (∃ a, i.destOperand = some a ∧ dst a = some q) ∧
      ((t.reg q).toNat < 32768 ∨ (∃ a b, i = .rmem a b) ∨ ∃ a, i = .pop a) := by
  cases he with
  | @write _ a r hi ha v =>
    refine (State.reg_setReg_cases _ r q _).imp id ?_
    rintro ⟨rfl, e⟩
    exact ⟨⟨a, hi, ha⟩, .inl (e.symm ▸ zextVal_lt v)⟩
  | @load a b r ha =>
    refine (State.reg_setReg_cases _ r q _).imp id ?_
    rintro ⟨rfl, -⟩
    exact ⟨⟨a, rfl, ha⟩, .inr (.inl ⟨a, b, rfl⟩)⟩
  | @pop a r v rest ha hs =>
    refine (State.reg_setReg_cases _ r q v).imp id ?_
    rintro ⟨rfl, -⟩
    exact ⟨⟨a, rfl, ha⟩, .inr (.inr ⟨a, rfl⟩)⟩
  | @take a r ch rest ha hs =>
    refine (State.reg_setReg_cases _ r q _).imp id ?_
    rintro ⟨rfl, e⟩
    refine ⟨⟨a, rfl, ha⟩, .inl ?_⟩
    rw [e, zextByte_toNat]
    exact Nat.lt_trans ch.isLt (by decide)
  | _ => exact .inl rfl

theorem step_reg_cases (ht : step s = .next t) {q : RegIdx} (hq : t.reg q ≠ s.reg q) :
    ∃ i a, s.fetchDecode = .ok i ∧ i.destOperand = some a ∧ dst a = some q ∧
      ((t.reg q).toNat < 32768 ∨ (∃ a b, i = .rmem a b) ∨ ∃ a, i = .pop a) := by
  obtain ⟨-, i, hd, he⟩ | ⟨-, e, -, rfl⟩ | ⟨-, rfl⟩ := step_next_cases ht
  · obtain ⟨⟨a, hi, ha⟩, hv⟩ := (he.reg_cases q).resolve_left hq
    exact ⟨i, a, hd, hi, ha, hv⟩
  · exact absurd rfl hq
  · exact absurd rfl hq

/-- Settles O42, by the registers each effect writes (`Effect.reg_cases`). -/
theorem onlyDestinationRegisterChanges : Obligations.OnlyDestinationRegisterChanges := by
  intro s t q ht hq
  obtain ⟨i, a, hd, hi, ha, -⟩ := step_reg_cases ht hq
  exact ⟨i, a, hd, hi, ha⟩

/-- Settles O46: every other instruction writes a Val or a byte (`Effect.reg_cases`). -/
theorem highWordsEnterRegistersByRmemPop : Obligations.HighWordsEnterRegistersByRmemPop := by
  intro s t q ht hq hhigh
  obtain ⟨i, a, hd, -, -, hlow | ⟨a, b, rfl⟩ | ⟨a, rfl⟩⟩ := step_reg_cases ht hq
  · exact absurd hlow (Nat.not_lt.mpr hhigh)
  · exact .inl ⟨a, b, hd⟩
  · exact .inr ⟨a, hd⟩

/-! ### The stack -/

theorem Effect.stack_cases (he : Effect s i t) (h : t.stack ≠ s.stack) :
    ((∃ a, i = .push a ∨ i = .call a) ∧ ∃ v, t.stack = v :: s.stack) ∨
      ((i = .ret ∨ ∃ a, i = .pop a) ∧ ∃ v, s.stack = v :: t.stack) := by
  cases he with
  | @push a => exact .inl ⟨⟨a, .inl rfl⟩, _, rfl⟩
  | @call a => exact .inl ⟨⟨a, .inr rfl⟩, _, rfl⟩
  | @pop a r v rest ha hs => exact .inr ⟨.inr ⟨a, rfl⟩, v, hs⟩
  | @ret v rest hs => exact .inr ⟨.inl rfl, v, hs⟩
  | _ => exact absurd rfl h

/-- Settles O43, by the stack each effect leaves (`Effect.stack_cases`). -/
theorem stackChangesOnlyAtTop : Obligations.StackChangesOnlyAtTop := by
  intro s t ht hne
  obtain ⟨-, i, hd, he⟩ | ⟨-, e, -, rfl⟩ | ⟨-, rfl⟩ := step_next_cases ht
  · obtain ⟨⟨a, rfl | rfl⟩, hv⟩ | ⟨rfl | ⟨a, rfl⟩, hv⟩ := he.stack_cases hne
    · exact .inl ⟨⟨a, .inl hd⟩, hv⟩
    · exact .inl ⟨⟨a, .inr hd⟩, hv⟩
    · exact .inr ⟨.inl hd, hv⟩
    · exact .inr ⟨.inr ⟨a, hd⟩, hv⟩
  · exact absurd rfl hne
  · exact absurd rfl hne

end Sys2Proof.Machine
end

section
/-! PROOFS. Stopping: the faults a step takes and the frame of fault entry, and the three ways to `Halted` (60_exceptions.md sections 1 and 2). -/

namespace Sys2Proof.Machine

variable {s t : State} {i : Instr}

/-! ### The run state after an instruction -/

/-- The run state is as before, or the instruction took one of its own faults, or it halted. -/
theorem Effect.run_cases (he : Effect s i t) :
    t.run = s.run ∨
      (∃ e, t = s.faulted e ∧ ((∃ a, i.destOperand = some a ∧ dst a = none) ∧ e = .registerIndexOutOfRange ∨
        (∃ a b c, i = .mod a b c ∧ src c s = 0) ∧ e = .divideByZero)) ∨
      ∃ c, t.run = .halted c ∧ (i = .halt ∧ c = .haltInstruction ∨
        (i = .ret ∨ ∃ a, i = .pop a) ∧ s.stack = [] ∧ c = .stackUnderflow) := by
  cases he with
  | @faultDst i a hi ha => exact .inr (.inl ⟨_, rfl, .inl ⟨⟨a, hi, ha⟩, rfl⟩⟩)
  | @faultDiv a b c hc => exact .inr (.inl ⟨_, rfl, .inr ⟨⟨a, b, c, rfl, hc⟩, rfl⟩⟩)
  | @popEmpty a hs => exact .inr (.inr ⟨_, rfl, .inr ⟨.inr ⟨a, rfl⟩, hs, rfl⟩⟩)
  | retEmpty hs => exact .inr (.inr ⟨_, rfl, .inr ⟨.inl rfl, hs, rfl⟩⟩)
  | halt => exact .inr (.inr ⟨_, rfl, .inl ⟨rfl, rfl⟩⟩)
  | _ => exact .inl rfl

/-! ### Faults -/

theorem faulted_frame (s : State) (e : FaultReason) : FaultFrame s (s.faulted e) :=
  ⟨fun _ => rfl, fun _ => rfl, rfl, rfl, rfl⟩

theorem takesFault_of_decode {e : FaultReason} (hrun : s.run = .running) (hd : decode s.fetchWords = .error e) :
    TakesFault e s :=
  ⟨_, _, step_running_error hrun (State.fetchDecode_of_decode_error hd), rfl, faulted_frame s e⟩

/-- A step that enters `Faulted` is fault entry; its reason is the decoder's, or it is a MOD by 0: the decoder has checked the destination. -/
theorem step_faulted {e : FaultReason} {p : Word} (hrun : s.run = .running) (ht : step s = .next t)
    (hf : t.run = .faulted e p) :
    t = s.faulted e ∧ (s.fetchDecode = .error e ∨
      (∃ a b c, s.fetchDecode = .ok (.mod a b c) ∧ src c s = 0) ∧ e = .divideByZero) := by
  obtain ⟨-, i, hd, he⟩ | ⟨-, r, hd, rfl⟩ | ⟨hrun', -⟩ := step_next_cases ht
  · obtain hkeep | ⟨r, rfl, hr⟩ | ⟨c, hc, -⟩ := he.run_cases
    · cases (hf.symm.trans hkeep).trans hrun
    · cases hf
      obtain ⟨⟨a, hi, ha⟩, -⟩ | ⟨⟨a, b, c, rfl, hc⟩, hr⟩ := hr
      · obtain ⟨q, hq⟩ := dst_of_fetchDecode hd hi
        cases ha.symm.trans hq
      · exact ⟨rfl, .inr ⟨⟨a, b, c, hd, hc⟩, hr⟩⟩
    · cases hf.symm.trans hc
  · cases hf
    exact ⟨rfl, .inl hd⟩
  · exact absurd hrun hrun'

/-- Settles O17: a step that enters `Faulted` is fault entry from the state in which it began (`step_faulted`). -/
theorem faultEntryIsPrecise : Obligations.FaultEntryIsPrecise := by
  intro s t e p hrun ht hf
  obtain ⟨rfl, -⟩ := step_faulted hrun ht hf
  cases hf
  exact ⟨rfl, faulted_frame s e⟩

theorem exec_dst_none {a : Operand} (hi : i.destOperand = some a) (ha : dst a = none) :
    exec i s = .next (s.faulted .registerIndexOutOfRange) := by
  cases i with
  | halt | push | jmp | jnz | jz | wmem | call | ret | out | noop => cases hi
  | set | pop | eq | gt | add | mult | mod | and | or | not | rmem | inp =>
    cases hi
    exact withDst_none ha s _

/-- Settles O40: every instruction with a destination resolves it first (`exec_dst_none`). -/
theorem destinationOutOfRangeTraps : Obligations.DestinationOutOfRangeTraps := by
  intro i v s hi hv
  have hnone : dst (.lit v) = none := dif_neg (Nat.not_lt.mpr hv)
  exact ⟨_, exec_dst_none hi hnone, rfl, faulted_frame s _⟩

/-! ### Halts -/

theorem step_halted {c : HaltCause} (hrun : s.run = .running) (ht : step s = .next t) (hc : t.run = .halted c) :
    s.fetchDecode = .ok .halt ∧ c = .haltInstruction ∨
      (s.fetchDecode = .ok .ret ∨ ∃ a, s.fetchDecode = .ok (.pop a)) ∧ s.stack = [] ∧ c = .stackUnderflow := by
  obtain ⟨-, i, hd, he⟩ | ⟨-, r, -, rfl⟩ | ⟨hrun', -⟩ := step_next_cases ht
  · obtain hkeep | ⟨r, rfl, -⟩ | ⟨c', hc', h⟩ := he.run_cases
    · cases (hc.symm.trans hkeep).trans hrun
    · cases hc
    · cases hc.symm.trans hc'
      obtain ⟨rfl, rfl⟩ | ⟨rfl | ⟨a, rfl⟩, hs, rfl⟩ := h
      · exact .inl ⟨hd, rfl⟩
      · exact .inr ⟨.inl hd, hs, rfl⟩
      · exact .inr ⟨.inr ⟨a, hd⟩, hs, rfl⟩
  · cases hc
  · exact absurd hrun hrun'

/-- Settles O20: no other effect halts (`step_halted`), and each of the three does; that POP's destination is good is the decoder's check. -/
theorem haltedInExactlyThreeWays : Obligations.HaltedInExactlyThreeWays := by
  intro s t c hrun ht
  refine ⟨step_halted hrun ht, ?_⟩
  rintro (⟨hd, rfl⟩ | ⟨hd | ⟨a, hd⟩, hs, rfl⟩) <;> rw [step_running_ok hrun hd] at ht
  · cases ht
    rfl
  · cases (execRet_nil hs).symm.trans ht
    rfl
  · obtain ⟨r, ha⟩ := dst_of_fetchDecode hd rfl
    cases (execPop_nil ha hs).symm.trans ht
    rfl

end Sys2Proof.Machine
end

section
/-! PROOFS. What the decoder rejects (R72 to R75, R78): the first bad word, at its operand position, with the words before it those of a good
instruction; said in both directions. -/

namespace Sys2Proof

variable {w : Word} {ws tail : List Word} {e : FaultReason} {i : Instr} {k : Nat}

/-- How the operand word at position `k` of `i` is taken: as a destination where the instruction has one, which is always its first (R54). -/
def takeOperand (i : Instr) : Nat → List Word → Except FaultReason (Operand × List Word)
  | 0 => match i.destOperand with
    | some _ => takeDst
    | none => takeSrc
  | _ + 1 => takeSrc

theorem takeOperand_dest {a : Operand} (h : i.destOperand = some a) : takeOperand i 0 = takeDst := by
  simp only [takeOperand, h]

theorem takeOperand_source (h : i.destOperand = none) : takeOperand i 0 = takeSrc := by
  simp only [takeOperand, h]

theorem takeOperand_cases (i : Instr) (k : Nat) :
    (k = 0 ∧ i.destOperand.isSome = true ∧ takeOperand i k = takeDst) ∨ takeOperand i k = takeSrc := by
  cases k with
  | zero =>
    cases h : i.destOperand with
    | none => exact .inr (takeOperand_source h)
    | some a => exact .inl ⟨rfl, rfl, takeOperand_dest h⟩
  | succ k => exact .inr rfl

/-! ### A bad operand word is rejected -/

theorem decodeF1v_of_error {mk : Operand → Instr} (h : takeSrc ws = .error e) : decodeF1v mk ws = .error e := by
  simp only [decodeF1v, h]

theorem decodeF1d_of_error {mk : Operand → Instr} (h : takeDst ws = .error e) : decodeF1d mk ws = .error e := by
  simp only [decodeF1d, h]

theorem decodeF2dv_of_error {mk : Operand → Operand → Instr} (h : takeDst ws = .error e) :
    decodeF2dv mk ws = .error e := by
  simp only [decodeF2dv, h]

theorem decodeF2vv_of_error {mk : Operand → Operand → Instr} (h : takeSrc ws = .error e) :
    decodeF2vv mk ws = .error e := by
  simp only [decodeF2vv, h]

theorem decodeF3dvv_of_error {mk : Operand → Operand → Operand → Instr} (h : takeDst ws = .error e) :
    decodeF3dvv mk ws = .error e := by
  simp only [decodeF3dvv, h]

theorem decodeF2dv_cons (mk : Operand → Operand → Instr) {a : Operand} (ha : a.isDest = true) (ws : List Word) :
    decodeF2dv mk (a.word :: ws) = decodeF1v (mk a) ws := by
  simp only [decodeF2dv, takeDst_word ha]

theorem decodeF2vv_cons (mk : Operand → Operand → Instr) (a : Operand) (ws : List Word) :
    decodeF2vv mk (a.word :: ws) = decodeF1v (mk a) ws := by
  simp only [decodeF2vv, takeSrc_word]

theorem decodeF3dvv_cons (mk : Operand → Operand → Operand → Instr) {a : Operand} (ha : a.isDest = true) (ws : List Word) :
    decodeF3dvv mk (a.word :: ws) = decodeF2vv (mk a) ws := by
  simp only [decodeF3dvv, takeDst_word ha]

/-- The operand words before position `k` being those of `i`, what is wrong at position `k` is what the decoder rejects with. -/
theorem decode_error_at (hwf : k = 0 ∨ i.wellFormed = true) (hk : k < i.operands.length)
    (h : takeOperand i k tail = .error e) : decode ((encode i).take (k + 1) ++ tail) = .error e := by
  cases i with
  | halt | ret | noop => cases hk
  | push | jmp | call | out =>
    match k, hk with
    | 0, _ => exact decodeF1v_of_error h
  | pop | inp =>
    match k, hk with
    | 0, _ => exact decodeF1d_of_error h
  | set | not | rmem =>
    match k, hk with
    | 0, _ => exact decodeF2dv_of_error h
    | 1, _ => exact (decodeF2dv_cons _ (hwf.resolve_left Nat.one_ne_zero) _).trans (decodeF1v_of_error h)
  | jnz | jz | wmem =>
    match k, hk with
    | 0, _ => exact decodeF2vv_of_error h
    | 1, _ => exact (decodeF2vv_cons _ _ _).trans (decodeF1v_of_error h)
  | eq | gt | add | mult | mod | and | or =>
    match k, hk with
    | 0, _ => exact decodeF3dvv_of_error h
    | 1, _ => exact (decodeF3dvv_cons _ (hwf.resolve_left Nat.one_ne_zero) _).trans (decodeF2vv_of_error h)
    | 2, _ =>
      exact ((decodeF3dvv_cons _ (hwf.resolve_left (by decide)) _).trans (decodeF2vv_cons _ _ _)).trans
        (decodeF1v_of_error h)

/-! ### What is rejected has a bad word -/

/-- The words begin like a well-formed instruction, and its next operand word is missing or bad. -/
def RejectedOperand (ws : List Word) (e : FaultReason) : Prop :=
  ∃ (i : Instr) (k : Nat) (tail : List Word), i.wellFormed = true ∧ k < i.operands.length ∧
    ws = (encode i).take (k + 1) ++ tail ∧ takeOperand i k tail = .error e

theorem rejectedOperand_cons (k : Nat) (hop : i.opcode = w.toNat) (hwf : i.wellFormed = true) (hk : k < i.operands.length)
    (hws : ws = (i.operands.take k).map Operand.word ++ tail) (h : takeOperand i k tail = .error e) :
    RejectedOperand (w :: ws) e := by
  refine ⟨i, k, tail, hwf, hk, ?_, h⟩
  simp [encode, hop, hws, List.map_take]

theorem wellFormed_of_dest {a : Operand} (hi : i.destOperand = some a) (ha : a.isDest = true) : i.wellFormed = true := by
  simp only [Instr.wellFormed, hi, ha]

theorem wellFormed_of_no_dest (hi : i.destOperand = none) : i.wellFormed = true := by
  simp only [Instr.wellFormed, hi]

/-- Any operand word would do at the positions that the decoder has not reached. -/
def anyOperand : Operand := .reg 0

theorem rejected_F1v {mk : Operand → Instr} (hop : ∀ a, (mk a).opcode = w.toNat) (hops : ∀ a, (mk a).operands = [a])
    (hdst : ∀ a, (mk a).destOperand = none) (h : decodeF1v mk ws = .error e) : RejectedOperand (w :: ws) e :=
  rejectedOperand_cons (i := mk anyOperand) 0 (hop _) (wellFormed_of_no_dest (hdst _)) (by simp [hops]) rfl
    (takeOperand_source (hdst _) ▸ decodeF1v_error h)

theorem rejected_F1d {mk : Operand → Instr} (hop : ∀ a, (mk a).opcode = w.toNat) (hops : ∀ a, (mk a).operands = [a])
    (hdst : ∀ a, (mk a).destOperand = some a) (h : decodeF1d mk ws = .error e) : RejectedOperand (w :: ws) e :=
  rejectedOperand_cons (i := mk anyOperand) 0 (hop _) (wellFormed_of_dest (hdst _) rfl) (by simp [hops]) rfl
    (takeOperand_dest (hdst _) ▸ decodeF1d_error h)

theorem rejected_F2dv {mk : Operand → Operand → Instr} (hop : ∀ a b, (mk a b).opcode = w.toNat)
    (hops : ∀ a b, (mk a b).operands = [a, b]) (hdst : ∀ a b, (mk a b).destOperand = some a)
    (h : decodeF2dv mk ws = .error e) : RejectedOperand (w :: ws) e := by
  obtain h | ⟨a, rest, ha, hb⟩ := decodeF2dv_error h
  · exact rejectedOperand_cons (i := mk anyOperand anyOperand) 0 (hop _ _) (wellFormed_of_dest (hdst _ _) rfl)
      (by simp [hops]) rfl (takeOperand_dest (hdst _ _) ▸ h)
  · obtain ⟨hd, rfl⟩ := takeDst_ok ha
    exact rejectedOperand_cons (i := mk a anyOperand) 1 (hop _ _) (wellFormed_of_dest (hdst _ _) hd) (by simp [hops])
      (by simp [hops]) hb

theorem rejected_F2vv {mk : Operand → Operand → Instr} (hop : ∀ a b, (mk a b).opcode = w.toNat)
    (hops : ∀ a b, (mk a b).operands = [a, b]) (hdst : ∀ a b, (mk a b).destOperand = none)
    (h : decodeF2vv mk ws = .error e) : RejectedOperand (w :: ws) e := by
  obtain h | ⟨a, rest, ha, hb⟩ := decodeF2vv_error h
  · exact rejectedOperand_cons (i := mk anyOperand anyOperand) 0 (hop _ _) (wellFormed_of_no_dest (hdst _ _))
      (by simp [hops]) rfl (takeOperand_source (hdst _ _) ▸ h)
  · obtain rfl := takeSrc_ok ha
    exact rejectedOperand_cons (i := mk a anyOperand) 1 (hop _ _) (wellFormed_of_no_dest (hdst _ _)) (by simp [hops])
      (by simp [hops]) hb

theorem rejected_F3dvv {mk : Operand → Operand → Operand → Instr} (hop : ∀ a b c, (mk a b c).opcode = w.toNat)
    (hops : ∀ a b c, (mk a b c).operands = [a, b, c]) (hdst : ∀ a b c, (mk a b c).destOperand = some a)
    (h : decodeF3dvv mk ws = .error e) : RejectedOperand (w :: ws) e := by
  obtain h | ⟨a, rest, ha, hb⟩ | ⟨a, b, rest, rest', ha, hb, hc⟩ := decodeF3dvv_error h
  · exact rejectedOperand_cons (i := mk anyOperand anyOperand anyOperand) 0 (hop _ _ _) (wellFormed_of_dest (hdst _ _ _) rfl)
      (by simp [hops]) rfl (takeOperand_dest (hdst _ _ _) ▸ h)
  · obtain ⟨hd, rfl⟩ := takeDst_ok ha
    exact rejectedOperand_cons (i := mk a anyOperand anyOperand) 1 (hop _ _ _) (wellFormed_of_dest (hdst _ _ _) hd)
      (by simp [hops]) (by simp [hops]) hb
  · obtain ⟨hd, rfl⟩ := takeDst_ok ha
    obtain rfl := takeSrc_ok hb
    exact rejectedOperand_cons (i := mk a b anyOperand) 2 (hop _ _ _) (wellFormed_of_dest (hdst _ _ _) hd)
      (by simp [hops]) (by simp [hops]) hc

theorem decodeOpcode_error_cases (h : decodeOpcode w ws = .error e) :
    (22 ≤ w.toNat ∧ e = .unknownOpcode w) ∨ RejectedOperand (w :: ws) e := by
  obtain hw | hw := Nat.lt_or_ge w.toNat 22
  · unfold decodeOpcode at h
    split at h
    case h_1 | h_19 | h_22 => cases h -- F0
    case h_3 | h_7 | h_18 | h_20 => -- F1v
      exact .inr (rejected_F1v (fun _ => Eq.symm ‹_›) (fun _ => rfl) (fun _ => rfl) h)
    case h_4 | h_21 => -- F1d
      exact .inr (rejected_F1d (fun _ => Eq.symm ‹_›) (fun _ => rfl) (fun _ => rfl) h)
    case h_2 | h_15 | h_16 => -- F2dv
      exact .inr (rejected_F2dv (fun _ _ => Eq.symm ‹_›) (fun _ _ => rfl) (fun _ _ => rfl) h)
    case h_8 | h_9 | h_17 => -- F2vv
      exact .inr (rejected_F2vv (fun _ _ => Eq.symm ‹_›) (fun _ _ => rfl) (fun _ _ => rfl) h)
    case h_5 | h_6 | h_10 | h_11 | h_12 | h_13 | h_14 => -- F3dvv
      exact .inr (rejected_F3dvv (fun _ _ _ => Eq.symm ‹_›) (fun _ _ _ => rfl) (fun _ _ _ => rfl) h)
    case h_23 =>
      simp only [imp_false] at *
      omega
  · exact .inl ⟨hw, (Except.error.inj ((decodeOpcode_unknownOpcode hw).symm.trans h)).symm⟩

/-- Everything the decoder can reject. -/
theorem decode_error_cases (h : decode ws = .error e) :
    (ws = [] ∧ e = .memoryOutOfBounds) ∨
      (∃ w rest, ws = w :: rest ∧ 22 ≤ w.toNat ∧ e = .unknownOpcode w) ∨ RejectedOperand ws e := by
  cases ws with
  | nil => exact .inl ⟨rfl, (Except.error.inj h).symm⟩
  | cons w ws =>
    obtain ⟨hw, rfl⟩ | h := decodeOpcode_error_cases h
    · exact .inr (.inl ⟨w, ws, rfl, hw, rfl⟩)
    · exact .inr (.inr h)

/-! ### Which fault an operand word is rejected with -/

theorem takeOperand_nil (i : Instr) (k : Nat) : takeOperand i k [] = .error .memoryOutOfBounds := by
  obtain ⟨-, -, e⟩ | e := takeOperand_cases i k <;> rw [e]
  · exact takeDst_nil
  · exact takeSrc_nil

theorem takeOperand_invalid (hw : 32776 ≤ w.toNat) (i : Instr) (k : Nat) (ws : List Word) :
    takeOperand i k (w :: ws) = .error .invalidOperand := by
  obtain ⟨-, -, e⟩ | e := takeOperand_cases i k <;> rw [e]
  · exact takeDst_invalid hw ws
  · exact takeSrc_invalid hw ws

theorem eq_nil_of_takeOperand (h : takeOperand i k tail = .error .memoryOutOfBounds) : tail = [] := by
  obtain ⟨-, -, e⟩ | e := takeOperand_cases i k <;> rw [e] at h
  · obtain ⟨rfl, -⟩ | ⟨_, _, -, -, hne⟩ | ⟨_, _, _, -, -, -, hne⟩ := takeDst_error h
    · rfl
    · cases hne
    · cases hne
  · obtain ⟨rfl, -⟩ | ⟨_, _, -, -, hne⟩ := takeSrc_error h
    · rfl
    · cases hne

theorem range_of_not_isDest {a : Operand} (hc : classify w = some a) (ha : a.isDest = false) :
    8 ≤ w.toNat ∧ w.toNat ≤ 32767 := by
  obtain rfl := word_of_classify hc
  cases a with
  | lit v =>
    have hv := v.isLt
    simp only [Operand.isDest, Config.numRegs, decide_eq_false_iff_not] at ha
    rw [word_lit_toNat]
    omega
  | reg r => cases ha

theorem dest_of_takeOperand (h : takeOperand i k tail = .error .registerIndexOutOfRange) :
    k = 0 ∧ i.destOperand.isSome = true ∧ ∃ w rest, tail = w :: rest ∧ 8 ≤ w.toNat ∧ w.toNat ≤ 32767 := by
  obtain ⟨hk, hi, e⟩ | e := takeOperand_cases i k <;> rw [e] at h
  · obtain ⟨-, hne⟩ | ⟨_, _, -, -, hne⟩ | ⟨w, rest, a, rfl, hc, ha, -⟩ := takeDst_error h
    · cases hne
    · cases hne
    · exact ⟨hk, hi, w, rest, rfl, range_of_not_isDest hc ha⟩
  · obtain hne | hne := takeSrc_error_ne h <;> cases hne

theorem takeOperand_ne_divideByZero : takeOperand i k tail ≠ .error .divideByZero := by
  intro h
  obtain ⟨-, -, e⟩ | e := takeOperand_cases i k <;> rw [e] at h
  · simpa using takeDst_error_ne h
  · simpa using takeSrc_error_ne h

theorem decode_ne_divideByZero : decode ws ≠ .error .divideByZero := by
  intro h
  obtain ⟨-, hne⟩ | ⟨w, rest, -, -, hne⟩ | ⟨i, k, tail, -, -, -, h⟩ := decode_error_cases h
  · cases hne
  · cases hne
  · exact takeOperand_ne_divideByZero h

end Sys2Proof
end

section
/-! PROOFS. Fetching and the faults of a step (40_step_and_operands.md section 1, 60_exceptions.md section 1). -/

namespace Sys2Proof.Machine

variable {s t : State} {i : Instr}

/-! ### The step of the instruction at `pc` -/

theorem step_of_decode {rest : List Word} (hrun : s.run = .running) (h : decode s.fetchWords = .ok (i, rest)) :
    step s = exec i s :=
  step_running_ok hrun (State.fetchDecode_of_decode_ok h)

/-- Settles O9: `fetchWords` is the words read from `pc`. -/
theorem stepRunsDecodedInstruction : Obligations.StepRunsDecodedInstruction := fun _ _ _ hrun h => step_of_decode hrun h

/-- Where memory holds the words `ws` from `a` upward, reading at least as many words gives them first. -/
theorem Memory.readWords_of_reads {m : Memory} {ws : List Word} {a n : Nat} (hn : ws.length ≤ n)
    (hfit : a + ws.length ≤ 32768) (h : ∀ k w, ws[k]? = some w → m.read (a + k) = w) :
    ∃ rest, m.readWords n a = ws ++ rest := by
  induction ws generalizing a n with
  | nil => exact ⟨_, rfl⟩
  | cons w ws ih =>
    rw [List.length_cons] at hn hfit
    obtain ⟨n, rfl⟩ := Nat.exists_eq_add_of_le' (Nat.one_le_of_lt hn)
    have htail : ∀ k v, ws[k]? = some v → m.read (a + 1 + k) = v := fun k v hv => by
      rw [Nat.add_assoc, Nat.add_comm 1 k]
      exact h (k + 1) v hv
    obtain ⟨rest, hrest⟩ := ih (Nat.le_of_succ_le_succ hn) (by omega) htail
    have ha : a < 32768 := by omega
    have hread : m.read a = w := h 0 w rfl
    exact ⟨rest, by rw [Memory.readWords_succ, if_pos ha, hread, hrest, List.cons_append]⟩

theorem encode_length (i : Instr) : (encode i).length = i.numWords := by
  rw [encode, List.length_cons, List.length_map, Instr.numWords, Nat.add_comm]

theorem numWords_le (i : Instr) : i.numWords ≤ 4 := by
  rw [Instr.numWords, operands_length]
  exact Nat.add_le_add_left (operandCount_le _) 1

/-- Settles O10: the words fetched begin with the encoding, which decodes to the instruction (`decode_encode`). -/
theorem stepRunsInstructionInMemory : Obligations.StepRunsInstructionInMemory := by
  intro s i hrun hwf hfit hcells
  rw [← encode_length] at hfit
  obtain ⟨rest, hrest⟩ := Memory.readWords_of_reads ((encode_length i).trans_le (numWords_le i)) hfit hcells
  exact step_of_decode hrun ((congrArg decode hrest).trans (decode_encode hwf rest))

/-! ### Each fault of the decoder, from the words at `pc` and back to them -/

theorem fetchDecode_error {e : FaultReason} (h : s.fetchDecode = .error e) : decode s.fetchWords = .error e := by
  cases hd : decode s.fetchWords with
  | ok p => cases (State.fetchDecode_of_decode_ok hd).symm.trans h
  | error e' =>
    cases (State.fetchDecode_of_decode_error hd).symm.trans h
    rfl

theorem step_faulted_decode {e : FaultReason} {p : Word} (he : e ≠ .divideByZero) (hrun : s.run = .running)
    (ht : step s = .next t) (hf : t.run = .faulted e p) : s.fetchDecode = .error e := by
  obtain ⟨-, h | ⟨-, h⟩⟩ := step_faulted hrun ht hf
  · exact h
  · exact absurd h he

theorem pc_of_fetchWords_nil (h : s.fetchWords = []) : 32768 ≤ s.pc.toNat := by
  have hlen := s.words_length 4
  rw [← State.fetchWords_eq_words, h, List.length_nil] at hlen
  omega

theorem outOfBounds_words (h : decode s.fetchWords = .error .memoryOutOfBounds) :
    32768 ≤ s.pc.toNat ∨ ∃ (i : Instr) (k : Nat), i.wellFormed = true ∧ k < i.operands.length ∧
      s.fetchWords = (encode i).take (k + 1) := by
  obtain ⟨hnil, -⟩ | ⟨w, rest, -, -, hne⟩ | ⟨i, k, tail, hwf, hk, hws, htake⟩ := decode_error_cases h
  · exact .inl (pc_of_fetchWords_nil hnil)
  · cases hne
  · rw [eq_nil_of_takeOperand htake, List.append_nil] at hws
    exact .inr ⟨i, k, hwf, hk, hws⟩

/-- Settles O12: a missing opcode or operand word is rejected so, and nothing else is (`outOfBounds_words`). -/
theorem fetchPastEndFaults : Obligations.FetchPastEndFaults := by
  refine fun s hrun => ⟨fun hpc => ?_, fun i k hwf hk hws => ?_, fun t p ht hf => ?_⟩
  · apply takesFault_of_decode hrun
    rw [State.fetchWords_eq_words, State.words_eq_nil hpc]
    rfl
  · apply takesFault_of_decode hrun
    rw [hws, ← List.append_nil (List.take _ _)]
    exact decode_error_at (.inr hwf) hk (takeOperand_nil i k)
  · have hd := step_faulted_decode (by simp) hrun ht hf
    refine ⟨outOfBounds_words (fetchDecode_error hd), fun i hi => ?_⟩
    cases hd.symm.trans hi

/-- Settles O13: the opcode word alone decides (`decodeOpcode_unknownOpcode`). -/
theorem unknownOpcodeFaults : Obligations.UnknownOpcodeFaults := by
  intro s hrun hpc hw
  apply takesFault_of_decode hrun
  rw [State.fetchWords_eq_words, State.words_eq_cons hpc]
  exact decodeOpcode_unknownOpcode hw

/-- Settles O14: at every position such a word is rejected so, whichever way it is taken (`takeOperand_invalid`). -/
theorem invalidOperandWordFaults : Obligations.InvalidOperandWordFaults := by
  intro s i k w rest hrun hwf hk hw hws
  apply takesFault_of_decode hrun
  rw [hws]
  exact decode_error_at (.inr hwf) hk (takeOperand_invalid hw i k rest)

theorem operands_pos_of_dest {a : Operand} (h : i.destOperand = some a) : 0 < i.operands.length := by
  cases i with
  | halt | ret | noop => cases h
  | _ => exact Nat.succ_pos _

/-- Settles O15: a destination is the first operand and is taken by `takeDst`, which alone rejects so (`dest_of_takeOperand`). -/
theorem registerIndexFaultOnlyByDestination : Obligations.RegisterIndexFaultOnlyByDestination := by
  refine ⟨fun s i w rest hrun hi hlo hhi hws => ?_, fun s t p hrun ht hf => ?_⟩
  · obtain ⟨a, ha⟩ := Option.isSome_iff_exists.mp hi
    apply takesFault_of_decode hrun
    rw [hws]
    refine decode_error_at (k := 0) (.inl rfl) (operands_pos_of_dest ha) ?_
    rw [takeOperand_dest ha]
    exact takeDst_outOfRange hlo hhi rest
  · have hd := fetchDecode_error (step_faulted_decode (by simp) hrun ht hf)
    obtain ⟨-, hne⟩ | ⟨w, rest, -, -, hne⟩ | ⟨i, k, tail, -, -, hws, htake⟩ := decode_error_cases hd
    · cases hne
    · cases hne
    · obtain ⟨rfl, hi, w, rest, rfl, hrange⟩ := dest_of_takeOperand htake
      exact ⟨i, w, rest, hi, hrange.1, hrange.2, hws⟩

/-- Settles O16: MOD by 0 is fault entry, and neither the decoder (`decode_ne_divideByZero`) nor another instruction raises it. -/
theorem divideByZeroOnlyByMod : Obligations.DivideByZeroOnlyByMod := by
  refine ⟨fun a b c r s ha hc => ⟨_, _, execMod_zero ha hc, rfl, faulted_frame s _⟩, fun s t p hrun ht hf => ?_⟩
  obtain ⟨-, hd | ⟨h, -⟩⟩ := step_faulted hrun ht hf
  · exact absurd (fetchDecode_error hd) decode_ne_divideByZero
  · exact h

end Sys2Proof.Machine
end

section
/-! PROOFS. Memory as data: `MemWrite` sets one word, and the canonical form is one list for each content (20_memory.md section 1). -/

namespace Sys2Proof.Machine

variable {m m' : Memory} {k : Nat}

/-- The listed cells are just those that do not read as an unlisted one. -/
theorem Memory.mem_iff (h : m.wf) (v : Byte) : (k, v) ∈ m ↔ m.byteAt k = v ∧ v ≠ unlistedByte := by
  induction m with
  | nil =>
    rw [Memory.byteAt_nil]
    exact ⟨fun hmem => absurd hmem List.not_mem_nil, fun ⟨hv, hne⟩ => absurd hv.symm hne⟩
  | cons p m ih =>
    obtain ⟨k', v'⟩ := p
    have hlt := (List.pairwise_cons.mp h.1).1
    have hne := (h.2 (k', v') List.mem_cons_self).1
    rw [List.mem_cons, Memory.byteAt_cons, ih (Memory.wf_tail h), Prod.mk.injEq]
    by_cases hk : k' = k
    · subst hk
      have hnone : Memory.byteAt m k' = unlistedByte := Memory.byteAt_of_lt hlt
      rw [if_pos rfl, hnone]
      constructor
      · rintro (⟨-, rfl⟩ | ⟨hv, hv'⟩)
        · exact ⟨rfl, hne⟩
        · exact absurd hv.symm hv'
      · rintro ⟨rfl, -⟩
        exact .inl ⟨rfl, rfl⟩
    · rw [if_neg hk]
      exact or_iff_right fun hc => hk hc.1.symm

theorem Memory.eq_of_byteAt_eq (h : m.wf) (h' : m'.wf) (he : ∀ k, m.byteAt k = m'.byteAt k) : m = m' := by
  have : Std.Irrefl fun p q : Host.Cell => p.1 < q.1 := ⟨fun p => Nat.lt_irrefl p.1⟩
  have : Std.Antisymm fun p q : Host.Cell => p.1 < q.1 := ⟨fun _ _ hlt hgt => absurd hgt (Nat.lt_asymm hlt)⟩
  refine h.1.eq_of_mem_iff h'.1 fun p => ?_
  obtain ⟨k, v⟩ := p
  rw [Memory.mem_iff h, Memory.mem_iff h', he]

theorem Memory.byteAt_even (m : Memory) (a : Nat) : m.byteAt (2 * a) = lowByte (m.read a) :=
  (lowByte_wordOfBytes _ _).symm

theorem Memory.byteAt_odd (m : Memory) (a : Nat) : m.byteAt (2 * a + 1) = highByte (m.read a) :=
  (highByte_wordOfBytes _ _).symm

theorem Memory.byteAt_of_ge (h : m.wf) (hk : 65536 ≤ k) : m.byteAt k = unlistedByte := by
  by_contra hne
  have hmem := (h.2 _ ((Memory.mem_iff h _).mpr ⟨rfl, hne⟩)).2
  exact absurd hmem (Nat.not_lt.mpr hk)

/-- Settles O47: equal words give equal bytes, and the cells listed are those whose byte is not the unlisted one. -/
theorem canonicalMemoriesAreEqual : Obligations.CanonicalMemoriesAreEqual := by
  intro m m' h h' he
  refine Memory.eq_of_byteAt_eq h h' fun k => ?_
  obtain hk | hk := Nat.lt_or_ge k 65536
  · obtain ⟨a, rfl | rfl⟩ := Nat.even_or_odd' k
    · rw [Memory.byteAt_even, Memory.byteAt_even, he a (by omega)]
    · rw [Memory.byteAt_odd, Memory.byteAt_odd, he a (by omega)]
  · rw [Memory.byteAt_of_ge h hk, Memory.byteAt_of_ge h' hk]

/-- Settles O48, by the laws of `memWrite`; the rest of the state is kept by its definition. -/
theorem memWriteSetsOneCell : Obligations.MemWriteSetsOneCell := by
  refine fun s a v h => ⟨?_, fun a' ha' => ?_, State.wf_memWrite h a v, rfl⟩
  · rw [State.memRead_memWrite h, if_pos rfl]
  · rw [State.memRead_memWrite h, if_neg ha']

end Sys2Proof.Machine
end

section
/-! PROOFS. The instructions one by one: result, `pc` and frame (files 41 to 46). -/

namespace Sys2Proof.Machine

variable {a b c : Operand} {r : RegIdx} {s : State}

/-! ### Frames of the shared operations -/

theorem keepsOtherRegs_setReg (s : State) (r : RegIdx) (v : Word) : KeepsOtherRegs r s (s.setReg r v) :=
  fun _ hq => State.reg_setReg_ne s hq v

theorem registerFrame_setReg (s : State) (n : Nat) (r : RegIdx) (v : Word) :
    RegisterFrame r s ((s.advance n).setReg r v) :=
  ⟨keepsOtherRegs_setReg (s.advance n) r v, fun _ => rfl, rfl, ⟨rfl, rfl⟩, rfl, rfl⟩

theorem pcFrame_setPc (s : State) (v : Word) : PcFrame s (s.setPc v) :=
  ⟨fun _ => rfl, fun _ => rfl, rfl, ⟨rfl, rfl⟩, rfl, rfl⟩

theorem pcFrame_advance (s : State) (n : Nat) : PcFrame s (s.advance n) := pcFrame_setPc s _

theorem haltFrame_halt (s : State) (n : Nat) (c : HaltCause) : HaltFrame c s ((s.advance n).halt c) :=
  ⟨rfl, fun _ => rfl, fun _ => rfl, rfl, ⟨rfl, rfl⟩, rfl⟩

theorem writeDst_frame (ha : dst a = some r) (n : Nat) (v : Word) (s : State) :
    ∃ t, writeDst a n v s = .next t ∧ t.reg r = v ∧ t.pc = s.pc + BitVec.ofNat 16 n ∧ RegisterFrame r s t :=
  ⟨_, writeDst_some ha n v s, State.reg_setReg_self _ r v, rfl, registerFrame_setReg s n r v⟩

/-- The same for a Val given by its number. -/
theorem writeDst_val_frame (ha : dst a = some r) {v : Val} {m : Nat} (hv : v.toNat = m) (n : Nat) (s : State) :
    ∃ t, writeDst a n (zextVal v) s = .next t ∧ (t.reg r).toNat = m ∧ t.pc = s.pc + BitVec.ofNat 16 n ∧
      RegisterFrame r s t := by
  obtain ⟨t, ht, hreg, hpc, hframe⟩ := writeDst_frame ha n (zextVal v) s
  exact ⟨t, ht, by rw [hreg, zextVal_toNat, hv], hpc, hframe⟩

/-! ### Data movement -/

/-- Settles O21, by `writeDst_val_frame`. -/
theorem setWritesSourceValue : Obligations.SetWritesSourceValue := fun _ _ _ s ha => writeDst_val_frame ha rfl 3 s

/-- Settles O22: PUSH is its effect, written out. -/
theorem pushAddsTopCell : Obligations.PushAddsTopCell := by
  intro a s
  refine ⟨_, rfl, congrArg (· :: s.stack) ?_, rfl, rfl, fun _ => rfl, fun _ => rfl, ⟨rfl, rfl⟩, rfl, rfl⟩
  exact (Pseudocode.word_toNat (src a s)).symm

/-- Settles O23, by the two branches of POP. -/
theorem popMovesTopOrHalts : Obligations.PopMovesTopOrHalts := by
  refine fun a r s ha => ⟨fun v rest hs => ?_, fun hs => ?_⟩
  · exact ⟨_, execPop_cons ha hs, State.reg_setReg_self _ r v, rfl, rfl,
      keepsOtherRegs_setReg (State.advance { s with stack := rest } 2) r v, fun _ => rfl, ⟨rfl, rfl⟩, rfl, rfl⟩
  · exact ⟨_, execPop_nil ha hs, rfl, haltFrame_halt s 2 _⟩

/-! ### Comparison and control transfer -/

/-- Settles O24, by `writeDst_val_frame` and the numbers of the comparisons. -/
theorem comparisonsWriteOneOrZero : Obligations.ComparisonsWriteOneOrZero :=
  fun _ _ _ _ s ha => ⟨writeDst_val_frame ha (cmpEq_toNat _ _) 4 s, writeDst_val_frame ha (cmpGt_toNat _ _) 4 s⟩

/-- Settles O25: JMP is `setPc`. -/
theorem jmpSetsPc : Obligations.JmpSetsPc := fun a s => ⟨_, rfl, zextVal_toNat (src a s), pcFrame_setPc s _⟩

/-- Settles O26, by whether the tested value is 0. -/
theorem conditionalJumpsTestZero : Obligations.ConditionalJumpsTestZero := by
  intro a b s
  by_cases h : (src a s).toNat = 0
  · exact ⟨_, _, execJnz_zero h, execJz_zero h, pcFrame_advance s 3, pcFrame_setPc s _, fun hne => absurd h hne,
      fun _ => ⟨rfl, zextVal_toNat _⟩⟩
  · exact ⟨_, _, execJnz_ne h, execJz_ne h, pcFrame_setPc s _, pcFrame_advance s 3, fun _ => ⟨zextVal_toNat _, rfl⟩,
      fun hz => absurd hz h⟩

/-- Settles O27: CALL is its effect, written out. -/
theorem callPushesReturnAddress : Obligations.CallPushesReturnAddress :=
  fun a s => ⟨_, rfl, rfl, zextVal_toNat (src a s), fun _ => rfl, fun _ => rfl, ⟨rfl, rfl⟩, rfl, rfl⟩

/-- Settles O28, by the two branches of RET. -/
theorem retPopsPcOrHalts : Obligations.RetPopsPcOrHalts := by
  refine fun s => ⟨fun v rest hs => ?_, fun hs => ?_⟩
  · exact ⟨_, execRet_cons hs, rfl, rfl, fun _ => rfl, fun _ => rfl, ⟨rfl, rfl⟩, rfl, rfl⟩
  · exact ⟨_, execRet_nil hs, rfl, haltFrame_halt s 1 _⟩

/-! ### Arithmetic and logic -/

/-- Settles O29, by the number of `aluAdd`. -/
theorem addWritesSumModulo32768 : Obligations.AddWritesSumModulo32768 :=
  fun _ _ _ _ s ha => writeDst_val_frame ha (aluAdd_toNat _ _) 4 s

/-- Settles O30, by the number of `aluMult`. -/
theorem multWritesProductModulo32768 : Obligations.MultWritesProductModulo32768 :=
  fun _ _ _ _ s ha => writeDst_val_frame ha (aluMult_toNat _ _) 4 s

/-- Settles O31, by the branch of MOD with a divisor that is not 0. -/
theorem modWritesRemainder : Obligations.ModWritesRemainder := by
  intro a b c r s ha hc
  have hpos : 0 < (src c s).toNat := Nat.pos_of_ne_zero (mt (val_eq_zero_iff _).mpr hc)
  refine ⟨_, execMod_ne ha hc, ?_, ?_, rfl, registerFrame_setReg s 4 r _⟩ <;>
    rw [State.reg_setReg_self, zextVal_toNat, remainder_toNat]
  exact Nat.mod_lt _ hpos

theorem zextVal_getLsbD (v : Val) (n : Nat) : (zextVal v).getLsbD n = v.getLsbD n := by
  rw [zextVal, BitVec.getLsbD_setWidth]
  by_cases hn : n < 16
  · rw [decide_eq_true hn, Bool.true_and]
  · rw [BitVec.getLsbD_of_ge v n (by omega), Bool.and_false]

/-- The result of a bitwise instruction in bits: those of the Val, and bit 15 zero. -/
theorem writeDst_bits_frame (ha : dst a = some r) (v : Val) (n : Nat) (s : State) :
    ∃ t, writeDst a n (zextVal v) s = .next t ∧ (t.reg r).getLsbD 15 = false ∧
      (∀ k, k < 15 → (t.reg r).getLsbD k = v.getLsbD k) ∧ t.pc = s.pc + BitVec.ofNat 16 n ∧ RegisterFrame r s t := by
  obtain ⟨t, ht, hreg, hpc, hframe⟩ := writeDst_frame ha n (zextVal v) s
  refine ⟨t, ht, ?_, fun k _ => ?_, hpc, hframe⟩
  · rw [hreg, zextVal_getLsbD]
    exact BitVec.getLsbD_of_ge v 15 le_rfl
  · rw [hreg, zextVal_getLsbD]

/-- Settles O32: the bits of the results are those of `BitVec`'s operations. -/
theorem andOrWriteBitwise : Obligations.AndOrWriteBitwise := by
  intro a b c r s ha
  obtain ⟨t, ht, hhigh, hand, hrest⟩ := writeDst_bits_frame ha (aluAnd (src b s) (src c s)) 4 s
  obtain ⟨u, hu, hhigh', hor, hrest'⟩ := writeDst_bits_frame ha (aluOr (src b s) (src c s)) 4 s
  refine ⟨⟨t, ht, hhigh, fun n hn => ?_, hrest⟩, ⟨u, hu, hhigh', fun n hn => ?_, hrest'⟩⟩
  · rw [hand n hn, aluAnd, BitVec.getLsbD_and]
  · rw [hor n hn, aluOr, BitVec.getLsbD_or]

/-- Settles O33, by the number of `aluNot`. -/
theorem notWritesComplement : Obligations.NotWritesComplement :=
  fun _ _ _ s ha => writeDst_val_frame ha (aluNot_toNat _) 3 s

/-! ### Memory -/

/-- Settles O34, by `writeDst_frame` for the whole word read. -/
theorem rmemLoadsWholeWord : Obligations.RmemLoadsWholeWord := fun _ b _ s ha => writeDst_frame ha 3 (s.memRead (src b s)) s

/-- Settles O35, by the laws of `Memory.write`. -/
theorem wmemStoresValue : Obligations.WmemStoresValue := by
  intro a b s hm
  have haddr := val_lt_memWords (src a s)
  refine ⟨_, rfl, ?_, fun k hlo hhi => ?_, Memory.wf_write hm haddr _, rfl, fun _ => rfl, rfl, ⟨rfl, rfl⟩, rfl, rfl⟩
  · rw [State.memWrite_mem, State.advance_mem, Memory.read_write hm haddr, if_pos rfl, zextVal_toNat]
  · rw [State.memWrite_mem, State.advance_mem, Memory.byteAt_write hm haddr, if_neg hhi, if_neg hlo]

/-! ### Input, output and system -/

/-- Settles O36: HALT is a halt past one word. -/
theorem haltStopsTheRun : Obligations.HaltStopsTheRun := fun s => ⟨_, rfl, rfl, haltFrame_halt s 1 _⟩

/-- Settles O37: narrowing a Val to 8 bits is reduction modulo 256. -/
theorem outEmitsLowByte : Obligations.OutEmitsLowByte :=
  fun a s => ⟨_, _, rfl, rfl, BitVec.toNat_setWidth 8 (src a s), rfl, fun _ => rfl, fun _ => rfl, rfl, rfl, rfl, rfl⟩

/-- Settles O38, by whether a byte is available. -/
theorem inTakesOneByteOrWaits : Obligations.InTakesOneByteOrWaits := by
  refine fun a r s ha => ⟨fun ch rest hs => ?_, fun hs => execIn_nil ha hs⟩
  refine ⟨_, execIn_cons ha hs, ?_, rfl, rfl,
    keepsOtherRegs_setReg (State.advance { s with input := rest } 2) r _, fun _ => rfl, rfl, rfl, rfl, rfl⟩
  rw [State.reg_setReg_self, zextByte_toNat]

/-- Settles O39: NOOP is `advance`. -/
theorem noopOnlyAdvances : Obligations.NoopOnlyAdvances := fun s => ⟨_, rfl, rfl, pcFrame_advance s 1⟩

/-! ### Two steps in a row -/

/-- Settles O54: CALL pushes the address past itself, which lies inside memory or at its end, and RET takes it back. -/
theorem callThenRetReturns : Obligations.CallThenRetReturns := by
  intro s t a hrun hcall ht hret
  have ht' : t = (s.push (s.pc + 2)).setPc (zextVal (src a s)) := by
    cases (step_running_ok hrun hcall).symm.trans ht
    rfl
  have hrun' : t.run = .running := by rw [ht']; exact hrun
  have hstack : t.stack = (s.pc + 2) :: s.stack := by rw [ht']; rfl
  obtain ⟨hpop, -⟩ := retPopsPcOrHalts t
  obtain ⟨u, hu, hpc, hrest, hframe⟩ := hpop _ _ hstack
  rw [ht'] at hframe
  refine ⟨u, (step_running_ok hrun' hret).trans hu, ?_, hrest, hframe⟩
  rw [hpc]
  exact pc_add_toNat (pc_add_numWords_le hcall)

/-- Settles O55: the supplied bytes do not change what is fetched, so the same IN is tried again and takes the first of them. -/
theorem waitingInEndsWithInput : Obligations.WaitingInEndsWithInput := by
  intro s a r ch more hrun hd ha hs
  have hinput : (s.supplyInput (ch :: more)).input = ch :: more := by rw [State.supplyInput_input, hs, List.nil_append]
  obtain ⟨htake, -⟩ := inTakesOneByteOrWaits a r (s.supplyInput (ch :: more)) ha
  obtain ⟨t, ht, hreg, htail, hpc, hregs, hmem, hstack, houtput, hkeep⟩ := htake ch more hinput
  refine ⟨(step_running_ok hrun hd).trans (execIn_nil ha hs), t, ?_, hreg, htail, hpc, houtput, hregs, hmem, hstack, hkeep⟩
  exact (step_running_ok (s := s.supplyInput (ch :: more)) hrun hd).trans ht

end Sys2Proof.Machine
end
